-- ==== Sys2Proof/Word.lean ====
section
/-!
DEFINITION. The words of the USB-CAN-A frame codec: the widths that the ports and the registers have
(spec 00_scope R7, R8; 30_encoding R68).
-/

namespace Sys2Proof

/-- A byte: an unsigned 8-bit value (00_scope R8). -/
abbrev Byte := BitVec 8

/-- The frame offset register and the port `rx_ofs` (10_state R21, `OFS_WIDTH` of 00_scope R7). -/
abbrev Ofs := BitVec 4

/-- The encoder's identifier port (`ID_IN_WIDTH` of 00_scope R7). -/
abbrev Id11 := BitVec 11

/-- The decoder's identifier output (`ID_OUT_WIDTH` of 00_scope R7). -/
abbrev Id16 := BitVec 16

/-- The encoder's length port (`LEN_WIDTH` of 00_scope R7). -/
abbrev Len := BitVec 4

/-- Eight payload lanes of one byte, lane k at bits `8k+7..8k` (30_encoding R68). -/
abbrev Lanes := BitVec 64

/-- Thirteen wire bytes, wire offset j at bits `8j+7..8j` (30_encoding R71). -/
abbrev FrameBits := BitVec 104

/-- The input bits of one step (30_encoding R69). -/
abbrev StepWord := BitVec 90

/-- The key `ofs` above `rx_byte` that selects a row of RXB (30_encoding R75). -/
abbrev RxKey := BitVec 12

end Sys2Proof
end

