-- ==== Sys2Proof/Config.lean ====
section
/-!
DEFINITION. The constants of the block (spec 00_scope R7: it has no open parameter), and the free values
that stand for what the spec leaves unspecified on output ports.
-/

namespace Sys2Proof.Config

/-- `SOF`, the start sentinel, the byte at wire offset 0 (00_scope R7, 30_encoding R60). -/
abbrev sof : Byte := 0xAA#8

/-- `CMD`, the one valid command byte, at wire offset 1 (00_scope R7, 30_encoding R64). -/
abbrev cmd : Byte := 0xC8#8

/-- `EOF`, the end sentinel, the byte at wire offset 12 (00_scope R7, 30_encoding R60). -/
abbrev eof : Byte := 0x55#8

/-- `FRAME_LEN` (00_scope R7; 90_conflicts C1). -/
abbrev frameLen : Nat := 13

/-- `PAYLOAD_LEN` (00_scope R7). -/
abbrev payloadLen : Nat := 8

/-- What `enc_frame` shows in a step with `enc_valid = 0`: "may hold any value" (30_encoding R71).
A free value, one for each index; log entry 4. -/
opaque freeEncFrame : Nat → FrameBits

/-- What `rx_id` shows in a step whose status is not `FRAME`: unspecified (41_decoder R132).
A free value, one for each index; log entry 4. -/
opaque freeRxId : Nat → Id16

/-- What `rx_data` shows in a step whose status is not `FRAME`: unspecified (41_decoder R132).
A free value, one for each index; log entry 4. -/
opaque freeRxData : Nat → Lanes

end Sys2Proof.Config
end

