-- ==== Sys2Proof/Syntax.lean ====
section
/-!
DEFINITION. The instructions: one constructor for each row of spec/opcode_table.json, in the table's order.
The block runs no program (20_memory R52); its instructions are the operations that a step word selects
(30_encoding R69), the rows that the decoder selects inside a step (R75, R76) and the wire frame (R60).
-/

namespace Sys2Proof

/-- The rows of spec/opcode_table.json. An operand is a field of the row's encoding that the row leaves open. -/
inductive Instr where
  /-- `RST` (42_control R161). -/
  | rst
  /-- `ENC` (40_encoder R104) together with the decoder operation of the same step (42_control R162):
  `some b` is `RXB b`, `none` is `RXN`. Log entry 7. -/
  | enc (id : Id11) (len : Len) (data : Lanes) (rx : Option Byte)
  /-- `RXB` without `ENC` (41_decoder R120). -/
  | rxb (b : Byte)
  /-- `RXN` without `ENC` (41_decoder R120). -/
  | rxn
  /-- `RXB.SOF` (41_decoder R121). -/
  | rxbSof
  /-- `RXB.SKIP` (41_decoder R122). -/
  | rxbSkip (b : Byte)
  /-- `RXB.CMD_OK` (41_decoder R123). -/
  | rxbCmdOk
  /-- `RXB.CMD_BAD` (41_decoder R124). -/
  | rxbCmdBad (b : Byte)
  /-- `RXB.IDL` (41_decoder R125). -/
  | rxbIdl (b : Byte)
  /-- `RXB.IDH` (41_decoder R126). -/
  | rxbIdh (b : Byte)
  /-- `RXB.DATA`, the row of `ofs` 4..7 (41_decoder R127): `k` is the low two bits of `ofs`. -/
  | rxbDataLo (k : BitVec 2) (b : Byte)
  /-- `RXB.DATA`, the row of `ofs` 8..11 (41_decoder R127): `k` is the low two bits of `ofs`. -/
  | rxbDataHi (k : BitVec 2) (b : Byte)
  /-- `RXB.TAIL_OK` (41_decoder R128). -/
  | rxbTailOk
  /-- `RXB.TAIL_BAD` (41_decoder R129). -/
  | rxbTailBad (b : Byte)
  /-- `RXB.UNREACHABLE`, the row of `ofs` 13 (30_encoding R77). -/
  | rxbUnreachableD (b : Byte)
  /-- `RXB.UNREACHABLE`, the row of `ofs` 14 and 15 (30_encoding R77): `x` is the low bit of `ofs`. -/
  | rxbUnreachableEF (x : BitVec 1) (b : Byte)
  /-- `RXN.NOT_READY` (41_decoder R130). -/
  | rxnNotReady
  /-- `RXN.WAIT` (41_decoder R131), with the `ofs` that selects it. -/
  | rxnWait (ofs : Ofs)
  /-- `WIRE_FRAME` (30_encoding R60, R61): the ten bytes that the pattern leaves open. -/
  | wireFrame (idl idh : Byte) (data : Lanes)
deriving DecidableEq, Repr

end Sys2Proof
end

