-- ==== Sys2Proof/WellFormed.lean ====
section
/-!
DEFINITION. Which instruction terms are encodings: a row that a row of higher priority hides for one byte
(30_encoding R75) does not have that byte, and `RXN.WAIT` has `ofs` 1 to 12 (R76).
-/

namespace Sys2Proof

/-- The checks on the operands of an instruction (30_encoding R75, R76). -/
def Instr.wf : Instr → Bool
  | .rst => true
  | .enc _ _ _ _ => true
  | .rxb _ => true
  | .rxn => true
  | .rxbSof => true
  | .rxbSkip b => b != Config.sof
  | .rxbCmdOk => true
  | .rxbCmdBad b => b != Config.cmd
  | .rxbIdl _ => true
  | .rxbIdh _ => true
  | .rxbDataLo _ _ => true
  | .rxbDataHi _ _ => true
  | .rxbTailOk => true
  | .rxbTailBad b => b != Config.eof
  | .rxbUnreachableD _ => true
  | .rxbUnreachableEF _ _ => true
  | .rxnNotReady => true
  | .rxnWait o => decide (1 ≤ o.toNat ∧ o.toNat ≤ 12)
  | .wireFrame _ _ _ => true

end Sys2Proof
end

