-- ==== Sys2Proof/Decode.lean ====
section
/-!
DEFINITION. The decoder of the four formats of spec/opcode_table.json (step word, RXB row key, RXN row key,
wire frame), and after it the encoder, each written from the spec's tables (30_encoding R60, R61, R69, R75, R76).
-/

namespace Sys2Proof

/-- The bits of an instruction, in the format of its row of the opcode table. -/
inductive Code where
  /-- A step word (30_encoding R69). -/
  | step (w : StepWord)
  /-- A key `ofs` above `rx_byte` (30_encoding R75). -/
  | rxSel (key : RxKey)
  /-- A key `ofs` of RXN (30_encoding R76). -/
  | rxnOfs (o : Ofs)
  /-- Thirteen wire bytes, wire offset j in lane j (30_encoding R61, R71). -/
  | wire (f : FrameBits)
deriving DecidableEq, Repr

/-- Why bits are no instruction. Each is a refusal to decode, and safe: nothing is executed. -/
inductive DecodeError where
  /-- A key of RXB that matches no row of 30_encoding R75 (there is none: the table is total). -/
  | noRxbRow
  /-- A key of RXN with `ofs` 13 to 15, which 30_encoding R76 gives no row. Log entry 5. -/
  | rxnOfsUnreachable
  /-- Thirteen bytes whose byte 0 is not `0xAA` (30_encoding R61). -/
  | wireNotSof
  /-- Thirteen bytes whose byte 1 is not `0xC8` (30_encoding R61, R66). -/
  | wireNotCmd
  /-- Thirteen bytes whose byte 12 is not `0x55` (30_encoding R61, R66). -/
  | wireNotEof
deriving DecidableEq, Repr

/-- Byte lane `k` of a port: bits `8k+7..8k` (30_encoding R68). -/
def lane {w : Nat} (v : BitVec w) (k : Nat) : Byte := v.extractLsb' (8 * k) 8

/-! ### Decoding -/

/-- Bit 89 of the step word (30_encoding R69). -/
def StepWord.rst (w : StepWord) : Bool := w.getLsbD 89

/-- Bit 88 of the step word (30_encoding R69). -/
def StepWord.encReq (w : StepWord) : Bool := w.getLsbD 88

/-- Bit 87 of the step word (30_encoding R69). -/
def StepWord.rxValid (w : StepWord) : Bool := w.getLsbD 87

/-- Bits 86..76 of the step word (30_encoding R69). -/
def StepWord.encId (w : StepWord) : Id11 := w.extractLsb' 76 11

/-- Bits 75..72 of the step word (30_encoding R69). -/
def StepWord.encLen (w : StepWord) : Len := w.extractLsb' 72 4

/-- Bits 71..8 of the step word (30_encoding R69). -/
def StepWord.encData (w : StepWord) : Lanes := w.extractLsb' 8 64

/-- Bits 7..0 of the step word (30_encoding R69). -/
def StepWord.rxByte (w : StepWord) : Byte := w.extractLsb' 0 8

/-- The decoder's input of a step: the byte, or nothing (30_encoding R72). -/
def StepWord.rx (w : StepWord) : Option Byte := if w.rxValid then some w.rxByte else none

/-- The operation a step word selects; none of the eight control combinations is reserved (30_encoding R69). -/
def decodeStepWord (w : StepWord) : Instr :=
  if w.rst then .rst
  else if w.encReq then .enc w.encId w.encLen w.encData w.rx
  else if w.rxValid then .rxb w.rxByte
  else .rxn

/-- A row of the RXB table: the key bits it fixes, their values, and its instruction. -/
structure RxRow where
  mask : RxKey
  value : RxKey
  build : RxKey → Instr

/-- Whether a key matches a row. -/
def RxRow.hits (r : RxRow) (key : RxKey) : Bool := key &&& r.mask == r.value

/-- The field `rx_byte` of a key. -/
def RxKey.byte (key : RxKey) : Byte := key.extractLsb' 0 8

/-- The rows of the RXB table, in its order (30_encoding R75; spec/opcode_table.json, format RXSEL). -/
def rxRows : List RxRow :=
  [ ⟨0xFFF, 0x0AA, fun _ => .rxbSof⟩,
    ⟨0xF00, 0x000, fun key => .rxbSkip (RxKey.byte key)⟩,
    ⟨0xFFF, 0x1C8, fun _ => .rxbCmdOk⟩,
    ⟨0xF00, 0x100, fun key => .rxbCmdBad (RxKey.byte key)⟩,
    ⟨0xF00, 0x200, fun key => .rxbIdl (RxKey.byte key)⟩,
    ⟨0xF00, 0x300, fun key => .rxbIdh (RxKey.byte key)⟩,
    ⟨0xC00, 0x400, fun key => .rxbDataLo (key.extractLsb' 8 2) (RxKey.byte key)⟩,
    ⟨0xC00, 0x800, fun key => .rxbDataHi (key.extractLsb' 8 2) (RxKey.byte key)⟩,
    ⟨0xFFF, 0xC55, fun _ => .rxbTailOk⟩,
    ⟨0xF00, 0xC00, fun key => .rxbTailBad (RxKey.byte key)⟩,
    ⟨0xF00, 0xD00, fun key => .rxbUnreachableD (RxKey.byte key)⟩,
    ⟨0xE00, 0xE00, fun key => .rxbUnreachableEF (key.extractLsb' 8 1) (RxKey.byte key)⟩ ]

/-- The row of RXB that a key selects: "The rows are tried in order and the first match wins" (30_encoding R75). -/
def decodeRxSel (key : RxKey) : Except DecodeError Instr :=
  match rxRows.find? (fun r => r.hits key) with
  | some r => .ok (r.build key)
  | none => .error .noRxbRow

/-- The row of RXN that `ofs` selects (30_encoding R76). -/
def decodeRxnOfs (o : Ofs) : Except DecodeError Instr :=
  if o = 0 then .ok .rxnNotReady
  else if o.toNat ≤ 12 then .ok (.rxnWait o)
  else .error .rxnOfsUnreachable

/-- Thirteen bytes read against the wire frame pattern (30_encoding R60, R61). -/
def decodeWire (f : FrameBits) : Except DecodeError Instr :=
  if lane f 0 ≠ Config.sof then .error .wireNotSof
  else if lane f 1 ≠ Config.cmd then .error .wireNotCmd
  else if lane f 12 ≠ Config.eof then .error .wireNotEof
  else .ok (.wireFrame (lane f 2) (lane f 3) (f.extractLsb' 32 64))

/-- The decoder: total, and it refuses by name. -/
def decode : Code → Except DecodeError Instr
  | .step w => .ok (decodeStepWord w)
  | .rxSel key => decodeRxSel key
  | .rxnOfs o => decodeRxnOfs o
  | .wire f => decodeWire f

/-! ### Encoding -/

/-- The step word of given field values (30_encoding R69). -/
def packStepWord (rst encReq rxValid : BitVec 1) (id : Id11) (len : Len) (data : Lanes) (b : Byte) : StepWord :=
  rst ++ encReq ++ rxValid ++ id ++ len ++ data ++ b

/-- The bit `rx_valid` and the field `rx_byte` of a decoder input (30_encoding R72). -/
def rxBits : Option Byte → BitVec 1 × Byte
  | some b => (1, b)
  | none => (0, 0)

/-- The key of a row: `ofs` above `rx_byte` (30_encoding R75). -/
def packKey (o : Ofs) (b : Byte) : RxKey := o ++ b

/-- The wire frame around ten field bytes, wire offset 0 in the lowest lane (30_encoding R60, R71). -/
def packWire (idl idh : Byte) (data : Lanes) : FrameBits :=
  Config.eof ++ data ++ idh ++ idl ++ Config.cmd ++ Config.sof

/-- The encoder: the bits of an instruction in the format of its row. Fields the operation does not read
are 0 (30_encoding R69 lets them hold any value; log entry 9). -/
def encode : Instr → Code
  | .rst => .step (packStepWord 1 0 0 0 0 0 0)
  | .enc id len data rx => .step (packStepWord 0 1 (rxBits rx).1 id len data (rxBits rx).2)
  | .rxb b => .step (packStepWord 0 0 1 0 0 0 b)
  | .rxn => .step (packStepWord 0 0 0 0 0 0 0)
  | .rxbSof => .rxSel (packKey 0 Config.sof)
  | .rxbSkip b => .rxSel (packKey 0 b)
  | .rxbCmdOk => .rxSel (packKey 1 Config.cmd)
  | .rxbCmdBad b => .rxSel (packKey 1 b)
  | .rxbIdl b => .rxSel (packKey 2 b)
  | .rxbIdh b => .rxSel (packKey 3 b)
  | .rxbDataLo k b => .rxSel (packKey (1#2 ++ k) b)
  | .rxbDataHi k b => .rxSel (packKey (2#2 ++ k) b)
  | .rxbTailOk => .rxSel (packKey 12 Config.eof)
  | .rxbTailBad b => .rxSel (packKey 12 b)
  | .rxbUnreachableD b => .rxSel (packKey 13 b)
  | .rxbUnreachableEF x b => .rxSel (packKey (7#3 ++ x) b)
  | .rxnNotReady => .rxnOfs 0
  | .rxnWait o => .rxnOfs o
  | .wireFrame idl idh data => .wire (packWire idl idh data)

/-! ### Bits as spec/opcode_table.json numbers them -/

/-- The thirteen bytes of a frame in the opposite order. -/
def swapFrame (f : FrameBits) : FrameBits :=
  lane f 0 ++ lane f 1 ++ lane f 2 ++ lane f 3 ++ lane f 4 ++ lane f 5 ++ lane f 6 ++ lane f 7 ++ lane f 8
    ++ lane f 9 ++ lane f 10 ++ lane f 11 ++ lane f 12

/-- A wire frame written as one number. The lanes of `enc_frame` put wire offset 0 lowest (30_encoding R71);
the table's pattern, read as one binary number, puts it highest (R61). The start sentinel tells which. Log entry 10. -/
def tableFrame (f : FrameBits) : FrameBits :=
  if lane f 0 ≠ Config.sof ∧ lane f 12 = Config.sof then swapFrame f else f

/-- The bits of a row of the opcode table whose width is `nbits` in whole bytes: 8 for a key of RXN, 16 for a key of
RXB, 96 for a step word, 104 for a wire frame. Bits above the row's own are refused. Log entry 10. -/
def Code.ofTableWord (nbits w : Nat) : Option Code :=
  if nbits ≤ 8 then (if w < 2 ^ 4 then some (.rxnOfs (BitVec.ofNat 4 w)) else none)
  else if nbits ≤ 16 then (if w < 2 ^ 12 then some (.rxSel (BitVec.ofNat 12 w)) else none)
  else if nbits ≤ 96 then (if w < 2 ^ 90 then some (.step (BitVec.ofNat 90 w)) else none)
  else if nbits ≤ 104 then (if w < 2 ^ 104 then some (.wire (tableFrame (BitVec.ofNat 104 w))) else none)
  else none

/-- The instruction the decoder reads from the bits `w` of a row of the opcode table. -/
def decodeTableWord (nbits w : Nat) : Option Instr :=
  match Code.ofTableWord nbits w with
  | some c => (decode c).toOption
  | none => none

end Sys2Proof
end

