-- ==== Sys2Proof/Machine/State.lean ====
section
/-!
DEFINITION. The state of the machine: the 84 bits of decoder state that the spec gives the block (10_state R20 to
R27), and, because a step of the model takes a State and gives a State, the host's transactions still to come and
the outputs of the last step. The block has no memory (20_memory R40), no flags (10_state R25) and no control
registers (R26), so State has none.
-/

namespace Sys2Proof.Machine

/-- The decoder's registers: "The complete decoder state is the tuple (ofs, id_lo, id_hi, buf[0..7])" (10_state R27).
`ofs` is the 4-bit register; that it stays in 0..12 is an invariant (10_state R30), and the codes 13..15 are
recovered as 30_encoding R77 says (log entry 5). -/
structure DecState where
  /-- The frame offset register, the decoder's program counter (10_state R21). -/
  ofs : Ofs
  /-- The identifier low byte (10_state R22). -/
  idLo : Byte
  /-- The identifier high byte (10_state R23). -/
  idHi : Byte
  /-- The payload registers `buf[0..7]` (10_state R24). -/
  buf : Vector Byte 8
deriving DecidableEq, Repr

/-- The decoder's registers after a reset (10_state R31, 42_control R161). -/
def DecState.reset : DecState := ⟨0, 0, 0, #v[0, 0, 0, 0, 0, 0, 0, 0]⟩

/-- What the decoder reports in a step (30_encoding R74). Only `FRAME` carries a frame (41_decoder R132), and the
codes 6 and 7 do not exist (93 U6). -/
inductive RxResult where
  /-- `NONE`: the byte is absorbed, or the step is `RST`. -/
  | none
  /-- `FRAME`: the identifier and the payload of a complete frame (41_decoder R128). -/
  | frame (id : Id16) (payload : Vector Byte 8)
  /-- `ERR_CMD`: `InvalidCommand` (60_exceptions R171). -/
  | errCmd
  /-- `ERR_TAIL`: `InvalidTail` (60_exceptions R172). -/
  | errTail
  /-- `NOT_READY`: no byte, in the sync scan (41_decoder R130). -/
  | notReady
  /-- `WAIT`: no byte, inside a frame (41_decoder R131). -/
  | wait
deriving DecidableEq, Repr

/-- One transaction of the host. The model's own (log entry 1). -/
inductive Input where
  /-- The input ports of one step (30_encoding R69). -/
  | word (w : StepWord)
  /-- Thirteen bytes to be fed one a step, wire offset 0 in the lowest lane (`FEED`, 30_encoding R81). -/
  | frame (f : FrameBits)
deriving DecidableEq, Repr

/-- The machine. -/
structure State where
  /-- The decoder's registers: all the state the block has (10_state R20, R27). -/
  dec : DecState
  /-- The host's transactions, oldest first. The model's own (log entries 1, 2). -/
  inputs : List Input
  /-- The encoder's output in the last step: `some f` is `enc_valid = 1` with `enc_frame = f`, `none` is `enc_valid = 0`
  (30_encoding R71). The model's own (log entry 3). -/
  encOut : Option FrameBits
  /-- The decoder's output in the last step (30_encoding R73). The model's own (log entry 3). -/
  rxOut : RxResult
  /-- The index of the free values that undriven output ports show; each step advances it. The model's own (log entry 4). -/
  draws : Nat
deriving DecidableEq, Repr

/-- Why the machine stops. It never does: the block's two exceptions are next states (60_exceptions R174, R175), and
it "raises no exception of any other kind" (R170). So there is no constructor; that is safe, since no run is cut short. -/
inductive Fault where
deriving DecidableEq, Repr

/-- Why the model gives an instruction no meaning. -/
inductive Refusal where
  /-- Raised by `exec` for an instruction that has no meaning yet; no arm does so now. Safe: nothing is claimed to happen. -/
  | notModelled (mnemonic : String)
deriving DecidableEq, Repr

/-- The machine at power-on: "in the reset state of 10_state.md rule R31, as if RST had been performed" (70_reset R190).
The host has presented nothing (log entries 1, 3, 4). -/
def State.reset : State :=
  { dec := DecState.reset
    inputs := []
    encOut := none
    rxOut := .none
    draws := 0 }

end Sys2Proof.Machine
end

