-- ==== Sys2Proof/Machine/Ops.lean ====
section
/-!
DEFINITION. The shared operations: byte lanes, writing the decoder's registers, what a decoder operation answers,
raising a framing error (60_exceptions R174), taking the next host transaction, and committing a step.
-/

namespace Sys2Proof.Machine

/-- Bytes in the lanes of a port, the first in lane 0; lanes without a byte are 0 (30_encoding R68). -/
def packBytes (w : Nat) : List Byte → BitVec w
  | [] => 0
  | b :: bs => (packBytes w bs <<< 8) ||| b.setWidth w

/-- The bytes of the first `n` lanes of a port, lane 0 first (30_encoding R68, R71). -/
def unpackBytes {w : Nat} (n : Nat) (v : BitVec w) : List Byte := (List.range n).map (lane v)

/-! ### Registers of the decoder -/

/-- `ofs <- n` (00_scope R10). -/
def DecState.setOfs (n : Ofs) (d : DecState) : DecState := { d with ofs := n }

/-- `id_lo <- b` (00_scope R10). -/
def DecState.setIdLo (b : Byte) (d : DecState) : DecState := { d with idLo := b }

/-- `id_hi <- b` (00_scope R10). -/
def DecState.setIdHi (b : Byte) (d : DecState) : DecState := { d with idHi := b }

/-- `buf[k] <- b` (00_scope R10). -/
def DecState.setBuf (k : Fin 8) (b : Byte) (d : DecState) : DecState := { d with buf := d.buf.set k b }

/-- The identifier `{id_hi, id_lo}` (30_encoding R62, 41_decoder R128). -/
def DecState.id (d : DecState) : Id16 := d.idHi ++ d.idLo

/-! ### What a decoder operation answers -/

/-- "It returns the next state, rx_status, and, for FRAME only, the frame" (41_decoder R120). -/
structure DecResult where
  next : DecState
  result : RxResult
deriving DecidableEq, Repr

/-- `emit S` with registers `d` (00_scope R10). -/
def emit (r : RxResult) (d : DecState) : DecResult := ⟨d, r⟩

/-- The block's two exceptions (60_exceptions R170). -/
inductive FrameError where
  /-- A command byte other than `0xC8` (60_exceptions R171). -/
  | invalidCommand
  /-- A tail byte other than `0x55` (60_exceptions R172). -/
  | invalidTail
deriving DecidableEq, Repr

/-- The status code of an exception (60_exceptions R174). -/
def FrameError.report : FrameError → RxResult
  | .invalidCommand => .errCmd
  | .invalidTail => .errTail

/-- Taking an exception: the report goes out, `ofs <- 0`, and `id_lo`, `id_hi` and `buf` are not written
(60_exceptions R174). Nothing is saved, so there is no return: the next byte meets the sync scan (R175). -/
def raise (e : FrameError) (d : DecState) : DecResult := emit e.report (d.setOfs 0)

/-! ### One step of the block -/

/-- The step word that presents one byte, or none, and asks for nothing else (30_encoding R69, R80). -/
def rxWord : Option Byte → StepWord
  | some b => packStepWord 0 0 1 0 0 0 b
  | none => packStepWord 0 0 0 0 0 0 0

/-- `FEED b0 b1 ...`: one `RXB` step a byte, in order (30_encoding R81). -/
def feed (bs : List Byte) : List Input := bs.map (fun b => .word (rxWord (some b)))

/-- The transactions left after a step: a step word is used up, and of a wire frame being fed the other twelve bytes
are left (log entry 8). Nothing is left of nothing (log entry 2). -/
def advance : List Input → List Input
  | [] => []
  | .word _ :: rest => rest
  | .frame f :: rest => feed ((unpackBytes 13 f).drop 1) ++ rest

/-- The end of a step: the registers the decoder answers, the outputs of this step (none of them is held from an
earlier one, 10_state R25, 70_reset R194), the transaction used up, fresh free values for undriven ports. -/
def State.commit (enc : Option FrameBits) (r : DecResult) (s : State) : State :=
  { dec := r.next
    inputs := advance s.inputs
    encOut := enc
    rxOut := r.result
    draws := s.draws + 1 }

end Sys2Proof.Machine
end

