-- ==== Sys2Proof/Machine/Decoder.lean ====
section
/-!
DEFINITION. The decoder: one register transfer for each row of RXB and RXN (41_decoder R121 to R131, 30_encoding R77),
the step function `DecStep` that selects among them (41_decoder R120), and the meanings of the rows and of `RXB` and
`RXN`. A row's meaning is its rule's register transfer; only the selection says when the block performs it (log entry 6).
-/

namespace Sys2Proof.Machine

/-! ### The register transfers of the rows -/

/-- `RXB.SOF`: `ofs <- 1; emit NONE` (41_decoder R121). -/
def rxbSof (d : DecState) : DecResult := emit .none (d.setOfs 1)

/-- `RXB.SKIP`: `emit NONE`, and `ofs` stays 0 (41_decoder R122). -/
def rxbSkip (d : DecState) : DecResult := emit .none d

/-- `RXB.CMD_OK`: `ofs <- 2; emit NONE` (41_decoder R123). -/
def rxbCmdOk (d : DecState) : DecResult := emit .none (d.setOfs 2)

/-- `RXB.CMD_BAD`: `raise FrameError(InvalidCommand)` (41_decoder R124). -/
def rxbCmdBad (d : DecState) : DecResult := raise .invalidCommand d

/-- `RXB.IDL`: `id_lo <- b; ofs <- 3; emit NONE` (41_decoder R125). -/
def rxbIdl (b : Byte) (d : DecState) : DecResult := emit .none ((d.setIdLo b).setOfs 3)

/-- `RXB.IDH`: `id_hi <- b; ofs <- 4; emit NONE` (41_decoder R126). -/
def rxbIdh (b : Byte) (d : DecState) : DecResult := emit .none ((d.setIdHi b).setOfs 4)

/-- `RXB.DATA` at `ofs = 4 + k`: `buf[ofs - 4] <- b; ofs <- ofs + 1; emit NONE` (41_decoder R127). -/
def rxbData (k : Fin 8) (b : Byte) (d : DecState) : DecResult :=
  emit .none ((d.setBuf k b).setOfs (BitVec.ofNat 4 (5 + k.val)))

/-- `RXB.TAIL_OK`: `rx_id = {id_hi, id_lo}`, `rx_data` is `buf`, `emit FRAME`, `ofs <- 0` (41_decoder R128). -/
def rxbTailOk (d : DecState) : DecResult := emit (.frame d.id d.buf) (d.setOfs 0)

/-- `RXB.TAIL_BAD`: `raise FrameError(InvalidTail)` (41_decoder R129). -/
def rxbTailBad (d : DecState) : DecResult := raise .invalidTail d

/-- `RXB` at `ofs = 0`: the sync scan (41_decoder R121, R122). -/
def hunt (b : Byte) (d : DecState) : DecResult := if b = Config.sof then rxbSof d else rxbSkip d

/-- `RXN.NOT_READY`: `emit NOT_READY` (41_decoder R130). -/
def rxnNotReady (d : DecState) : DecResult := emit .notReady d

/-- `RXN.WAIT`: `emit WAIT` (41_decoder R131). -/
def rxnWait (d : DecState) : DecResult := emit .wait d

/-- A step that finds `ofs` in 13..15: it is treated "as in ofs = 0", here the operation `op`, and it "also sets
ofs <- 0 after the step" (30_encoding R77; log entry 5). -/
def recover (op : DecState → DecResult) (d : DecState) : DecResult :=
  emit (op (d.setOfs 0)).result ((op (d.setOfs 0)).next.setOfs 0)

/-! ### The step function -/

/-- `DecStep(s, byte b)`: the first row of 30_encoding R75 that matches `{ofs, b}` (41_decoder R120). -/
def decByte (b : Byte) (d : DecState) : DecResult :=
  if d.ofs = 0 then hunt b d
  else if d.ofs = 1 then (if b = Config.cmd then rxbCmdOk d else rxbCmdBad d)
  else if d.ofs = 2 then rxbIdl b d
  else if d.ofs = 3 then rxbIdh b d
  else if h : d.ofs.toNat < 12 then rxbData ⟨d.ofs.toNat - 4, by omega⟩ b d
  else if d.ofs = 12 then (if b = Config.eof then rxbTailOk d else rxbTailBad d)
  else recover (hunt b) d

/-- `DecStep(s, none)` (41_decoder R120, 30_encoding R76, R77). -/
def decNone (d : DecState) : DecResult :=
  if d.ofs = 0 then rxnNotReady d
  else if d.ofs.toNat ≤ 12 then rxnWait d
  else recover rxnNotReady d

/-- `DecStep` (41_decoder R120). -/
def decStep (rx : Option Byte) (d : DecState) : DecResult :=
  match rx with
  | some b => decByte b d
  | none => decNone d

/-! ### The meanings -/

/-- `RXB` without `ENC` (41_decoder R120, 42_control R160). -/
def execRxb (b : Byte) (s : State) : Host.Outcome State Fault Refusal := .next (s.commit none (decStep (some b) s.dec))

/-- `RXN` without `ENC` (41_decoder R120, 42_control R160). -/
def execRxn (s : State) : Host.Outcome State Fault Refusal := .next (s.commit none (decStep none s.dec))

/-- `RXB.SOF` (41_decoder R121). -/
def execRxbSof (s : State) : Host.Outcome State Fault Refusal := .next (s.commit none (rxbSof s.dec))

/-- `RXB.SKIP` (41_decoder R122). -/
def execRxbSkip (s : State) : Host.Outcome State Fault Refusal := .next (s.commit none (rxbSkip s.dec))

/-- `RXB.CMD_OK` (41_decoder R123). -/
def execRxbCmdOk (s : State) : Host.Outcome State Fault Refusal := .next (s.commit none (rxbCmdOk s.dec))

/-- `RXB.CMD_BAD` (41_decoder R124). -/
def execRxbCmdBad (s : State) : Host.Outcome State Fault Refusal := .next (s.commit none (rxbCmdBad s.dec))

/-- `RXB.IDL` (41_decoder R125). -/
def execRxbIdl (b : Byte) (s : State) : Host.Outcome State Fault Refusal := .next (s.commit none (rxbIdl b s.dec))

/-- `RXB.IDH` (41_decoder R126). -/
def execRxbIdh (b : Byte) (s : State) : Host.Outcome State Fault Refusal := .next (s.commit none (rxbIdh b s.dec))

/-- `RXB.DATA`, `ofs` 4..7, that is `01` above `k` (41_decoder R127). -/
def execRxbDataLo (k : BitVec 2) (b : Byte) (s : State) : Host.Outcome State Fault Refusal :=
  .next (s.commit none (rxbData ⟨k.toNat, by omega⟩ b s.dec))

/-- `RXB.DATA`, `ofs` 8..11, that is `10` above `k` (41_decoder R127). -/
def execRxbDataHi (k : BitVec 2) (b : Byte) (s : State) : Host.Outcome State Fault Refusal :=
  .next (s.commit none (rxbData ⟨4 + k.toNat, by omega⟩ b s.dec))

/-- `RXB.TAIL_OK` (41_decoder R128). -/
def execRxbTailOk (s : State) : Host.Outcome State Fault Refusal := .next (s.commit none (rxbTailOk s.dec))

/-- `RXB.TAIL_BAD` (41_decoder R129). -/
def execRxbTailBad (s : State) : Host.Outcome State Fault Refusal := .next (s.commit none (rxbTailBad s.dec))

/-- `RXB.UNREACHABLE`, `ofs` 13 (30_encoding R77). -/
def execRxbUnreachableD (b : Byte) (s : State) : Host.Outcome State Fault Refusal :=
  .next (s.commit none (recover (hunt b) s.dec))

/-- `RXB.UNREACHABLE`, `ofs` 14 and 15 (30_encoding R77). -/
def execRxbUnreachableEF (b : Byte) (s : State) : Host.Outcome State Fault Refusal :=
  .next (s.commit none (recover (hunt b) s.dec))

/-- `RXN.NOT_READY` (41_decoder R130). -/
def execRxnNotReady (s : State) : Host.Outcome State Fault Refusal := .next (s.commit none (rxnNotReady s.dec))

/-- `RXN.WAIT` (41_decoder R131). -/
def execRxnWait (s : State) : Host.Outcome State Fault Refusal := .next (s.commit none (rxnWait s.dec))

end Sys2Proof.Machine
end

