-- ==== Sys2Proof/Machine/Operands.lean ====
section
/-!
DEFINITION. The operands of `ENC`: the normalized payload as the port assembles it (30_encoding R79), and the host's
side of the port: normalization of a payload of any length (40_encoder R100), its presentation (R101) and the
presentation of an identifier (R105).
-/

namespace Sys2Proof.Machine

/-- `len_eff = min(enc_len, 8)` (30_encoding R79). -/
def lenEff (len : Len) : Nat := min len.toNat 8

/-- Normalized payload byte `k`: lane k below the effective length, `0x00` from there on (30_encoding R79). -/
def encByte (len : Len) (data : Lanes) (k : Nat) : Byte := if k < lenEff len then lane data k else 0

/-- The eight normalized payload bytes (30_encoding R79). -/
def encPayload (len : Len) (data : Lanes) : List Byte := (List.range 8).map (encByte len data)

/-- `Normalize(p) = take(8, p) ++ zeros(8 - len(take(8, p)))` (40_encoder R100). -/
def normalizePayload (p : List Byte) : List Byte := p.take 8 ++ List.replicate (8 - (p.take 8).length) 0

/-- `enc_len` for a payload: `min(len(p), 15)` (40_encoder R101). -/
def hostLen (p : List Byte) : Len := BitVec.ofNat 4 (min p.length 15)

/-- `enc_data` for a payload, with the lanes that may hold anything written 0 (40_encoder R101, 30_encoding R80). -/
def hostLanes (p : List Byte) : Lanes := packBytes 64 (p.take 8)

/-- `enc_id = id mod 2^11` (40_encoder R105). -/
def hostId (id : Nat) : Id11 := BitVec.ofNat 11 id

end Sys2Proof.Machine
end

