-- ==== Sys2Proof/Machine/Encoder.lean ====
section
/-!
DEFINITION. The encoder (40_encoder R102, R103): the two identifier bytes, and the thirteen wire bytes. The meaning
of `ENC` stands in Control.lean, since its step performs a decoder operation too.
-/

namespace Sys2Proof.Machine

/-- `IDL` of `SplitId(id)`: `id[7:0]` (40_encoder R102). -/
def splitLo (id : Id11) : Byte := id.extractLsb' 0 8

/-- `IDH` of `SplitId(id)`: `zext_8(id[10:8])` (40_encoder R102). -/
def splitHi (id : Id11) : Byte := (id.extractLsb' 8 3).setWidth 8

/-- `Encode(id, q) = [0xAA, 0xC8, IDL, IDH] ++ q ++ [0x55]` (40_encoder R103). -/
def encodeFrame (id : Id11) (q : List Byte) : List Byte :=
  [Config.sof, Config.cmd, splitLo id, splitHi id] ++ q ++ [Config.eof]

/-- The port `enc_frame` of an `ENC` step: lane j is the wire byte at offset j (40_encoder R104). -/
def encOutput (id : Id11) (len : Len) (data : Lanes) : FrameBits :=
  packBytes 104 (encodeFrame id (encPayload len data))

end Sys2Proof.Machine
end

