-- ==== Sys2Proof/Machine/Control.lean ====
section
/-!
DEFINITION. The operations of the whole block: `RST` (42_control R161), `ENC` with the decoder operation of its step
(40_encoder R104, 42_control R160, R162), and a wire frame presented to the decoder (30_encoding R60, R81).
-/

namespace Sys2Proof.Machine

/-- `RST`: every decoder register to its reset value, `emit NONE`, `enc_valid = 0`; the other inputs of the step are
ignored, and a byte among them is not consumed by the decoder (42_control R161). -/
def execRst (s : State) : Host.Outcome State Fault Refusal := .next (s.commit none (emit .none DecState.reset))

/-- `ENC` (40_encoder R104), and in the same step `RXB` or `RXN`, each as if alone (42_control R162). -/
def execEnc (id : Id11) (len : Len) (data : Lanes) (rx : Option Byte) (s : State) :
    Host.Outcome State Fault Refusal :=
  .next (s.commit (some (encOutput id len data)) (decStep rx s.dec))

/-- `WIRE_FRAME`: the frame's thirteen bytes go to the decoder "one step each, in order" (30_encoding R81): this step
is the `RXB` of wire offset 0, and the other twelve bytes are the transactions that come next (log entry 8). -/
def execWireFrame (idl idh : Byte) (data : Lanes) (s : State) : Host.Outcome State Fault Refusal :=
  let t := s.commit none (decStep (some (lane (packWire idl idh data) 0)) s.dec)
  .next { t with inputs := feed ((unpackBytes 13 (packWire idl idh data)).drop 1) ++ s.inputs.drop 1 }

end Sys2Proof.Machine
end

