-- ==== Sys2Proof/Machine/Dispatch.lean ====
section
/-!
DEFINITION. The meaning of every instruction: one arm for each row of spec/opcode_table.json.
-/

namespace Sys2Proof.Machine

def exec (i : Instr) (s : State) : Host.Outcome State Fault Refusal :=
  match i with
  | .rst => Sys2Proof.Machine.execRst s
  | .enc id len data rx => Sys2Proof.Machine.execEnc id len data rx s
  | .rxb b => Sys2Proof.Machine.execRxb b s
  | .rxn => Sys2Proof.Machine.execRxn s
  | .rxbSof => Sys2Proof.Machine.execRxbSof s
  | .rxbSkip _ => Sys2Proof.Machine.execRxbSkip s
  | .rxbCmdOk => Sys2Proof.Machine.execRxbCmdOk s
  | .rxbCmdBad _ => Sys2Proof.Machine.execRxbCmdBad s
  | .rxbIdl b => Sys2Proof.Machine.execRxbIdl b s
  | .rxbIdh b => Sys2Proof.Machine.execRxbIdh b s
  | .rxbDataLo k b => Sys2Proof.Machine.execRxbDataLo k b s
  | .rxbDataHi k b => Sys2Proof.Machine.execRxbDataHi k b s
  | .rxbTailOk => Sys2Proof.Machine.execRxbTailOk s
  | .rxbTailBad _ => Sys2Proof.Machine.execRxbTailBad s
  | .rxbUnreachableD b => Sys2Proof.Machine.execRxbUnreachableD b s
  | .rxbUnreachableEF _ b => Sys2Proof.Machine.execRxbUnreachableEF b s
  | .rxnNotReady => Sys2Proof.Machine.execRxnNotReady s
  | .rxnWait _ => Sys2Proof.Machine.execRxnWait s
  | .wireFrame idl idh data => Sys2Proof.Machine.execWireFrame idl idh data s

end Sys2Proof.Machine
end

