-- ==== Sys2Proof/Machine/Fetch.lean ====
section
/-!
DEFINITION. Where a step gets its operation: from the host's next transaction (00_scope R11, 30_encoding R69). The block
fetches nothing itself (20_memory R52).
-/

namespace Sys2Proof.Machine

/-- The instruction that thirteen fed bytes begin with: the whole wire frame where they are one (30_encoding R61),
and otherwise the `RXB` of the first byte, since any bytes may be fed (30_encoding R81, 20_memory R45). -/
def fetchFrame (f : FrameBits) : Instr :=
  match decode (.wire f) with
  | .ok i => i
  | .error _ => .rxb (lane f 0)

/-- The instruction of the next step. A host that presents nothing leaves every control bit 0: `RXN` (log entry 2). -/
def fetchInstr (s : State) : Instr :=
  match s.inputs with
  | [] => .rxn
  | .word w :: _ => decodeStepWord w
  | .frame f :: _ => fetchFrame f

/-- The state whose next step performs the operation that bits of the opcode table select: a step word or a wire
frame is the next transaction; a key of RXB or RXN sets `ofs`, and the byte, or none, is the next transaction
(log entry 10). -/
def State.present (s : State) : Code → State
  | .step w => { s with inputs := .word w :: s.inputs }
  | .rxSel key =>
    { s with
      dec := s.dec.setOfs (key.extractLsb' 8 4)
      inputs := .word (rxWord (some (RxKey.byte key))) :: s.inputs }
  | .rxnOfs o => { s with dec := s.dec.setOfs o, inputs := .word (rxWord none) :: s.inputs }
  | .wire f => { s with inputs := .frame f :: s.inputs }

/-- `State.present` on bits as the opcode table numbers them; bits that are no row's leave the state as it is. -/
def State.presentTableWord (s : State) (nbits w : Nat) : State :=
  match Code.ofTableWord nbits w with
  | some c => s.present c
  | none => s

end Sys2Proof.Machine
end

