-- ==== Sys2Proof/Machine/Step.lean ====
section
/-!
DEFINITION. One step of the block: one host transaction (00_scope R11, 42_control R160).
-/

namespace Sys2Proof.Machine

/-- The block step: the operation that the host's next transaction selects (42_control R160). -/
def step (s : State) : Host.Outcome State Fault Refusal := exec (fetchInstr s) s

/-- The state with an instruction of the opcode table where the next step takes it from. -/
def State.withFetchWord (s : State) (nbits w : Nat) : State := s.presentTableWord nbits w

end Sys2Proof.Machine
end

