-- ==== Sys2Proof/Machine/Asm.lean ====
section
/-!
DEFINITION. The assembler notation and the pseudo-instructions of the spec (30_encoding R80, R81), as lists of host
transactions. `FEED` is `feed` of Ops.lean.
-/

namespace Sys2Proof.Machine

/-- `RST` (30_encoding R80). -/
def asmRst : List Input := [.word (packStepWord 1 0 0 0 0 0 0)]

/-- `ENC id, len=L, lanes=...`, alone (`rx = none`) or as `ENC ...; RXB b` in one step (`rx = some b`) (30_encoding R80). -/
def asmEncLanes (id : Id11) (len : Len) (data : Lanes) (rx : Option Byte) : List Input :=
  [.word (packStepWord 0 1 (rxBits rx).1 id len data (rxBits rx).2)]

/-- `ENC id, [b0, ...]` (30_encoding R80), for a payload of any length (40_encoder R101). -/
def asmEnc (id : Id11) (p : List Byte) (rx : Option Byte) : List Input :=
  asmEncLanes id (hostLen p) (hostLanes p) rx

/-- `RXB b` (30_encoding R80). -/
def asmRxb (b : Byte) : List Input := [.word (rxWord (some b))]

/-- `RXN` (30_encoding R80). -/
def asmRxn : List Input := [.word (rxWord none)]

/-- Decoder steps in order, `RXB` where there is a byte and `RXN` where there is none (30_encoding R80). -/
def asmRx (xs : List (Option Byte)) : List Input := xs.map (fun x => .word (rxWord x))

/-- The bytes among decoder steps, in order: the RX stream they present (20_memory R41, R49). -/
def rxBytes : List (Option Byte) → List Byte
  | [] => []
  | none :: xs => rxBytes xs
  | some b :: xs => b :: rxBytes xs

/-- `IDLE n` (30_encoding R81). -/
def asmIdle (n : Nat) : List Input := asmRx (List.replicate n none)

/-- `LOOP id, [bytes]`: the `ENC`, then `FEED` of the thirteen bytes of its `enc_frame` (30_encoding R81). -/
def asmLoop (id : Id11) (p : List Byte) : List Input :=
  asmEnc id p none ++ feed (unpackBytes 13 (encOutput id (hostLen p) (hostLanes p)))

/-- What a host does on the block when a session opens: `RST` (70_reset R192, R200). -/
def asmOpen : List Input := asmRst

/-- What a host does on the block to send: one `ENC`, with the identifier's low 11 bits (70_reset R200, 40_encoder R105). -/
def asmSend (id : Nat) (p : List Byte) (rx : Option Byte) : List Input := asmEnc (hostId id) p rx

end Sys2Proof.Machine
end

