-- ==== Sys2Proof/Machine/Flags.lean ====
section
/-!
DEFINITION. The block has no flags and no condition codes (10_state R25). What a host reads after a step is the output
ports (30_encoding R68), and this file gives each of them as a function of the state after the step. Where the spec
leaves a port unspecified it shows a free value (log entry 4).
-/

namespace Sys2Proof.Machine

/-- The `rx_status` codes (30_encoding R74). -/
def RxResult.code : RxResult → BitVec 3
  | .none => 0
  | .frame _ _ => 1
  | .errCmd => 2
  | .errTail => 3
  | .notReady => 4
  | .wait => 5

/-- Port `enc_valid`: 1 exactly in a step that performs `ENC` (30_encoding R71). -/
def State.encValid (s : State) : Bool := s.encOut.isSome

/-- Port `enc_frame` (30_encoding R71). -/
def State.encFrame (s : State) : FrameBits := s.encOut.getD (Config.freeEncFrame s.draws)

/-- Port `rx_status` (30_encoding R73). -/
def State.rxStatus (s : State) : BitVec 3 := s.rxOut.code

/-- Port `rx_id` (30_encoding R73, 41_decoder R132). -/
def State.rxId (s : State) : Id16 :=
  match s.rxOut with
  | .frame id _ => id
  | .none => Config.freeRxId s.draws
  | .errCmd => Config.freeRxId s.draws
  | .errTail => Config.freeRxId s.draws
  | .notReady => Config.freeRxId s.draws
  | .wait => Config.freeRxId s.draws

/-- Port `rx_data`: byte k in lane k (30_encoding R68, R73, 41_decoder R132). -/
def State.rxData (s : State) : Lanes :=
  match s.rxOut with
  | .frame _ payload => packBytes 64 payload.toList
  | .none => Config.freeRxData s.draws
  | .errCmd => Config.freeRxData s.draws
  | .errTail => Config.freeRxData s.draws
  | .notReady => Config.freeRxData s.draws
  | .wait => Config.freeRxData s.draws

/-- Port `rx_ofs`: the value of `ofs` after the step (41_decoder R133). -/
def State.rxOfs (s : State) : Ofs := s.dec.ofs

/-- The bytes that an `ENC` step gives the TX stream, in the order the host writes them (20_memory R41, 30_encoding R71,
70_reset R196); a step without `ENC` gives none. -/
def State.txBytes (s : State) : List Byte :=
  match s.encOut with
  | some f => unpackBytes Config.frameLen f
  | none => []

/-- All that a host may read of a step: the outputs less those the spec leaves unspecified (30_encoding R71, R73,
41_decoder R132: "a model leaves them out of its observable output"). -/
structure Observation where
  enc : Option FrameBits
  rx : RxResult
  ofs : Ofs
deriving DecidableEq, Repr

/-- What a host may read after a step (10_state R29). -/
def State.observe (s : State) : Observation := ⟨s.encOut, s.rxOut, s.rxOfs⟩

/-- The results of the source's `decode` (41_decoder R139). -/
inductive SourceResult where
  | ok (identifier : Id16) (payload : Vector Byte 8)
  | invalidCommand
  | invalidTail
  | noFrameReadyYet
deriving DecidableEq, Repr

/-- The result of the source's `decode` that a status ends an attempt with; `none` where the attempt goes on
(41_decoder R139). -/
def RxResult.source : RxResult → Option SourceResult
  | .none => Option.none
  | .frame id payload => some (.ok id payload)
  | .errCmd => some .invalidCommand
  | .errTail => some .invalidTail
  | .notReady => some .noFrameReadyYet
  | .wait => Option.none

end Sys2Proof.Machine
end

