-- ==== Sys2Proof/Safety.lean ====
section
/-!
DEFINITION. The terms that claims are stated in: what a safe run is, the invariants of the state (10_state R30), what a
decode attempt has accepted, and when two decoder states look alike.
-/

namespace Sys2Proof.Machine

/-- A step that neither faults nor refuses: an error never stops the decoder (60_exceptions R175). -/
def Safe (s : State) : Prop := ∃ t, step s = .next t

/-- `k` steps of the machine from `s` end in `t`. -/
def Runs (k : Nat) (s t : State) : Prop := Host.Core.run core k s = .next t

/-- `ofs` is one of the codes that a model has: 0 to 12 (10_state R30, invariant 1). -/
def DecState.Legal (d : DecState) : Prop := d.ofs.toNat ≤ 12

/-- The decoder's output agrees with its registers: a frame or an error leaves `ofs = 0` (41_decoder R134), `NOT_READY`
is given at `ofs = 0` and `WAIT` inside a frame (30_encoding R76), and a frame shows the registers (30_encoding R73). -/
def RxResult.Agrees (r : RxResult) (d : DecState) : Prop :=
  match r with
  | .none => True
  | .frame id payload => d.ofs = 0 ∧ id = d.id ∧ payload = d.buf
  | .errCmd => d.ofs = 0
  | .errTail => d.ofs = 0
  | .notReady => d.ofs = 0
  | .wait => d.ofs ≠ 0

/-- The encoder's output is a wire frame of an 11-bit identifier (30_encoding R61, R63). -/
def EncodedFrame (f : FrameBits) : Prop :=
  lane f 0 = Config.sof ∧ lane f 1 = Config.cmd ∧ (lane f 3).toNat < 8 ∧ lane f 12 = Config.eof

/-- What holds of the machine after every step: `ofs` is legal, and both outputs are as the spec describes them. -/
def State.Inv (s : State) : Prop :=
  s.dec.Legal ∧ s.rxOut.Agrees s.dec ∧ ∀ f, s.encOut = some f → EncodedFrame f

/-- The decode attempt has accepted exactly the bytes `bs`, wire offset 0 first, and the registers hold them
(10_state R30, invariants 1 to 4). No bytes: the decoder hunts. -/
def DecState.Accepted (d : DecState) (bs : List Byte) : Prop :=
  bs.length ≤ 12 ∧ d.ofs.toNat = bs.length ∧
  (∀ b, bs[0]? = some b → b = Config.sof) ∧
  (∀ b, bs[1]? = some b → b = Config.cmd) ∧
  (∀ b, bs[2]? = some b → d.idLo = b) ∧
  (∀ b, bs[3]? = some b → d.idHi = b) ∧
  (∀ (k : Fin 8) (b : Byte), bs[4 + k.val]? = some b → d.buf[k] = b)

/-- The bytes an attempt has accepted after one more decoder operation (41_decoder R121 to R131). -/
def acceptedAfter (bs : List Byte) : Option Byte → List Byte
  | none => bs
  | some b =>
    if bs.length = 0 then (if b = Config.sof then [b] else [])
    else if bs.length = 1 then (if b = Config.cmd then bs ++ [b] else [])
    else if bs.length < 12 then bs ++ [b]
    else []

/-- Two decoder states that differ at most in registers the current attempt has not written (10_state R30, invariant 5). -/
def DecState.Alike (d e : DecState) : Prop :=
  d.ofs = e.ofs ∧
  (3 ≤ d.ofs.toNat → d.idLo = e.idLo) ∧
  (4 ≤ d.ofs.toNat → d.idHi = e.idHi) ∧
  ∀ k : Fin 8, 5 + k.val ≤ d.ofs.toNat → d.buf[k] = e.buf[k]

end Sys2Proof.Machine
end

