-- ==== Sys2Proof/Certificates/Slice0/Obligations.lean ====
section
/-!
DEFINITION. The statements for the provers. Each docstring says which rule of the spec it formalises. In all of them
`inputs := advance s.inputs` and `draws := s.draws + 1` are the bookkeeping of the model's own fields (log entries 1 and 4),
and `encOut` and `rxOut` are where the model keeps a step's outputs (log entry 3); the rules speak of the registers `dec` and
of the outputs.
-/

open Sys2Proof Sys2Proof.Machine

/-! ### Reset -/

/-- 70_reset R190 and 10_state R31: the decoder's registers at power-on, as if `RST` had been performed. Registers that
differ only beside `ofs` look alike to a host (`StaleRegistersAreNeverObservable` says what that means of a run). -/
def Obligations.PowerOnRegisters : Prop :=
  core.reset = State.reset ∧
  State.reset.dec.ofs = 0#4 ∧ State.reset.dec.idLo = 0x00#8 ∧ State.reset.dec.idHi = 0x00#8 ∧
    (∀ k : Fin 8, State.reset.dec.buf[k] = 0x00#8) ∧
  (∀ s : State, ∃ t, exec .rst s = .next t ∧ t.dec = State.reset.dec) ∧
  ∀ d : DecState, d.ofs = 0 → State.reset.dec.Alike d

/-- The model's choice (log entries 1, 3 and 4): at power-on the host has presented nothing, and what it may read is what
it would read after `RST`. -/
def Obligations.PowerOnShowsWhatRstShows : Prop :=
  State.reset.inputs = [] ∧ State.reset.draws = 0 ∧
  ∀ s : State, ∃ t, exec .rst s = .next t ∧ t.dec = State.reset.dec ∧ t.observe = State.reset.observe

/-- 42_control R161: a step word with `rst = 1` resets every decoder register, emits `NONE` and gives `enc_valid = 0`,
whatever its other 89 bits are. In the sync scan it changes nothing that a host can see later. -/
def Obligations.RstStepResetsTheDecoder : Prop :=
  (∀ w : StepWord, w.getLsbD 89 = true → decode (.step w) = .ok .rst) ∧
  (∀ s : State, exec .rst s = .next
    { dec := { ofs := 0, idLo := 0, idHi := 0, buf := #v[0, 0, 0, 0, 0, 0, 0, 0] }
      inputs := advance s.inputs, encOut := none, rxOut := .none, draws := s.draws + 1 }) ∧
  (∀ (s : State) (w : StepWord) (rest : List Input), s.inputs = .word w :: rest → w.getLsbD 89 = true →
    ∃ t, step s = .next t ∧ t.dec = DecState.reset ∧ t.inputs = rest ∧ t.rxStatus = 0 ∧ t.rxOfs = 0 ∧
      t.encValid = false) ∧
  (∀ s t : State, s.dec.ofs = 0 → exec .rst s = .next t → s.dec.Alike t.dec)

/-! ### Decoding and encoding -/

/-- Decoding the encoding of a well-formed instruction gives it back, for every row and every operand
(30_encoding R61, R69, R75, R76). -/
def Obligations.DecodeEncodeAgree : Prop :=
  ∀ i : Instr, i.wf = true → decode (encode i) = .ok i

/-- Whatever decodes is well-formed: no row hands out an operand that another row has (30_encoding R75, R76). -/
def Obligations.DecodedIsWellFormed : Prop :=
  ∀ (c : Code) (i : Instr), decode c = .ok i → i.wf = true

/-- 30_encoding R69, the other direction: encoding what a step word decodes to gives the word back with the fields that
the operation does not read cleared (that they are cleared is the model's choice, log entry 9). -/
def Obligations.EncodeDecodedStepWord : Prop :=
  ∀ w : StepWord, ∃ i, decode (.step w) = .ok i ∧ encode i = .step (w &&&
    (if w.getLsbD 89 then 0x20000000000000000000000#90
     else if w.getLsbD 88 then
       (if w.getLsbD 87 then 0x1FFFFFFFFFFFFFFFFFFFFFF#90 else 0x17FFFFFFFFFFFFFFFFFFF00#90)
     else if w.getLsbD 87 then 0x080000000000000000000FF#90
     else 0#90))

/-- 30_encoding R69: the fields of the step word, where each lies, and the operation that each of the eight combinations of
`rst`, `enc_req` and `rx_valid` selects. -/
def Obligations.StepWordSelectsOperation : Prop :=
  ∀ (rst encReq rxValid : BitVec 1) (id : Id11) (len : Len) (data : Lanes) (b : Byte) (w : StepWord),
    w.extractLsb' 89 1 = rst → w.extractLsb' 88 1 = encReq → w.extractLsb' 87 1 = rxValid →
    w.extractLsb' 76 11 = id → w.extractLsb' 72 4 = len → w.extractLsb' 8 64 = data → w.extractLsb' 0 8 = b →
    w = rst ++ encReq ++ rxValid ++ id ++ len ++ data ++ b ∧
    decode (.step w) = .ok
      (if rst = 1 then .rst
       else if encReq = 1 then .enc id len data (if rxValid = 1 then some b else none)
       else if rxValid = 1 then .rxb b
       else .rxn)

/-- 30_encoding R75: the row of RXB that each key `{ofs, rx_byte}` selects; the table is total. -/
def Obligations.RxbTableFirstMatch : Prop :=
  ∀ (o : Ofs) (b : Byte), decode (.rxSel (o ++ b)) = .ok
    (if o = 0 then (if b = 0xAA then .rxbSof else .rxbSkip b)
     else if o = 1 then (if b = 0xC8 then .rxbCmdOk else .rxbCmdBad b)
     else if o = 2 then .rxbIdl b
     else if o = 3 then .rxbIdh b
     else if o.toNat < 8 then .rxbDataLo (o.extractLsb' 0 2) b
     else if o.toNat < 12 then .rxbDataHi (o.extractLsb' 0 2) b
     else if o = 12 then (if b = 0x55 then .rxbTailOk else .rxbTailBad b)
     else if o = 13 then .rxbUnreachableD b
     else .rxbUnreachableEF (o.extractLsb' 0 1) b)

/-- 30_encoding R76: the row of RXN that `ofs` selects. -/
def Obligations.RxnTableByOfs : Prop :=
  decode (.rxnOfs 0) = .ok .rxnNotReady ∧
  ∀ o : Ofs, 1 ≤ o.toNat → o.toNat ≤ 12 → decode (.rxnOfs o) = .ok (.rxnWait o)

/-- 30_encoding R61: thirteen bytes are a wire frame exactly when bytes 0, 1 and 12 are the three fixed values, and the
other ten bytes, any values, are its fields. -/
def Obligations.WireFramePattern : Prop :=
  ∀ f : FrameBits,
    ((∃ i, decode (.wire f) = .ok i) ↔ lane f 0 = 0xAA ∧ lane f 1 = 0xC8 ∧ lane f 12 = 0x55) ∧
    ∀ (idl idh : Byte) (data : Lanes), decode (.wire f) = .ok (.wireFrame idl idh data) ↔
      f = 0x55#8 ++ data ++ idh ++ idl ++ 0xC8#8 ++ 0xAA#8

/-- Words written out from the spec's own vectors (95_test_vectors W1, V-ENC-04, V-RX-01, V-CTL-04, V-CTL-02) and from the
tables (30_encoding R75, R76) decode to the instructions they stand for. How bits are given to the decoder is the model's
choice (log entry 10). -/
def Obligations.SampleWordsDecode : Prop :=
  decodeTableWord 96 0x135E50000004F4C4C454800 = some (.enc 0x35E 5 0x0000004F4C4C4548 none) ∧
  decodeTableWord 96 0x12AA8555555555555555500 = some (.enc 0x2AA 8 0x5555555555555555 none) ∧
  decodeTableWord 96 0x18010000000000000000007 = some (.enc 0x001 0 0 (some 0x07)) ∧
  decodeTableWord 96 0x080000000000000000000AA = some (.rxb 0xAA) ∧
  decodeTableWord 96 0x00000000000000000000000 = some .rxn ∧
  decodeTableWord 96 0x280000000000000000000AA = some .rst ∧
  decodeTableWord 16 0x0AA = some .rxbSof ∧
  decodeTableWord 16 0x1C8 = some .rxbCmdOk ∧
  decodeTableWord 16 0xC55 = some .rxbTailOk ∧
  decodeTableWord 16 0xB37 = some (.rxbDataHi 3 0x37) ∧
  decodeTableWord 8 0x0 = some .rxnNotReady ∧
  decodeTableWord 8 0x7 = some (.rxnWait 7) ∧
  decodeTableWord 104 0x550000004F4C4C4548035EC8AA = some (.wireFrame 0x5E 0x03 0x0000004F4C4C4548)

/-! ### The step -/

/-- A step performs the operation that the host's next transaction decodes to (42_control R160; that transactions stand in a
list is the model's choice, log entries 1 and 8). Where the host presents
nothing it is `RXN` (log entry 2), and thirteen fed bytes that are no wire frame begin with the `RXB` of their first. -/
def Obligations.StepRunsTheDecodedInstruction : Prop :=
  (∀ (s : State) (w : StepWord) (rest : List Input) (i : Instr),
    s.inputs = .word w :: rest → decode (.step w) = .ok i → step s = exec i s) ∧
  (∀ (s : State) (f : FrameBits) (rest : List Input) (i : Instr),
    s.inputs = .frame f :: rest → decode (.wire f) = .ok i → step s = exec i s) ∧
  (∀ (s : State) (f : FrameBits) (rest : List Input) (e : DecodeError),
    s.inputs = .frame f :: rest → decode (.wire f) = .error e → step s = exec (.rxb (lane f 0)) s) ∧
  (∀ s : State, s.inputs = [] → step s = exec .rxn s)

/-- 60_exceptions R175 and 30_encoding R78: nothing stops the block. Every step from every state is safe, and a run of any
length from any state ends in a state. -/
def Obligations.NoRunEverStops : Prop :=
  (∀ s : State, Safe s) ∧ ∀ (k : Nat) (s : State), ∃ t, Runs k s t

/-- 42_control R160, 10_state R25 and 70_reset R194: outputs are computed afresh. What a step does, and all a host may read
after it, depends on the registers and the transactions alone, not on what an earlier step reported. -/
def Obligations.OutputsAreNeverReadBack : Prop :=
  ∀ (k : Nat) (s s' t t' : State), s.dec = s'.dec → s.inputs = s'.inputs → Runs (k + 1) s t → Runs (k + 1) s' t' →
    t.dec = t'.dec ∧ t.inputs = t'.inputs ∧ t.observe = t'.observe

/-- The model's choice (log entry 8): thirteen bytes fed as one transaction are `FEED` of those bytes (30_encoding R81), wire
frame or not. -/
def Obligations.FedFrameIsThirteenBytes : Prop :=
  ∀ (s : State) (f : FrameBits) (rest : List Input),
    step { s with inputs := .frame f :: rest } = step { s with inputs := feed (unpackBytes 13 f) ++ rest }

/-! ### ENC -/

/-- 40_encoder R104: a step word with `rst = 0` and `enc_req = 1` is an `ENC`. It answers the thirteen wire bytes in the lanes of `enc_frame` with `enc_valid = 1`, in the same
step; the decoder's part of the step is that of `DecStep` alone. -/
def Obligations.EncGivesTheWireFrame : Prop :=
  (∀ w : StepWord, w.getLsbD 89 = false → w.getLsbD 88 = true → ∃ rx,
    decode (.step w) = .ok (.enc (w.extractLsb' 76 11) (w.extractLsb' 72 4) (w.extractLsb' 8 64) rx)) ∧
  ∀ (id : Id11) (len : Len) (data : Lanes) (rx : Option Byte) (s : State),
    ∃ t, exec (.enc id len data rx) s = .next t ∧ t.encValid = true ∧
      lane t.encFrame 0 = 0xAA ∧ lane t.encFrame 1 = 0xC8 ∧
      lane t.encFrame 2 = id.extractLsb' 0 8 ∧ lane t.encFrame 3 = (id.extractLsb' 8 3).setWidth 8 ∧
      (∀ k < 8, lane t.encFrame (4 + k) = if k < min len.toNat 8 then data.extractLsb' (8 * k) 8 else 0x00) ∧
      lane t.encFrame 12 = 0x55 ∧
      t.dec = (decStep rx s.dec).next ∧ t.rxOut = (decStep rx s.dec).result ∧
      t.inputs = advance s.inputs ∧ t.draws = s.draws + 1

/-- 40_encoder R104, "No decoder register is read or written", and R106: an `ENC` whose step has no received byte leaves
every decoder register as it is, and its frame does not depend on the state. -/
def Obligations.EncLeavesTheRegisters : Prop :=
  ∀ (id : Id11) (len : Len) (data : Lanes) (s s' : State), s.dec.Legal →
    ∃ t t', exec (.enc id len data none) s = .next t ∧ exec (.enc id len data none) s' = .next t' ∧
      t.dec = s.dec ∧ t.encFrame = t'.encFrame

/-- 42_control R162: in a step with `ENC` and a decoder operation each part's result is that of a step with that part
alone: the decoder's is as with `enc_req = 0`, and `ENC`'s is as in any other `ENC` step. -/
def Obligations.EncAndDecoderAreIndependent : Prop :=
  ∀ (id : Id11) (len : Len) (data : Lanes) (rx rx' : Option Byte) (s s' : State),
    ∃ t u v, exec (.enc id len data rx) s = .next t ∧
      exec (match rx with | some b => .rxb b | none => .rxn) s = .next u ∧
      exec (.enc id len data rx') s' = .next v ∧
      t.dec = u.dec ∧ t.rxOut = u.rxOut ∧ t.inputs = u.inputs ∧ u.encValid = false ∧
      t.encOut = v.encOut ∧ t.encValid = true

/-- 30_encoding R61 and R63: `enc_frame` is a wire frame, the bits `IDH[7:3]` are 0, and its identifier field is the
identifier, zero-extended. -/
def Obligations.EncOutputIsAWireFrame : Prop :=
  ∀ (id : Id11) (len : Len) (data : Lanes), ∃ (idl idh : Byte) (d : Lanes),
    decode (.wire (encOutput id len data)) = .ok (.wireFrame idl idh d) ∧
    idh.extractLsb' 3 5 = 0 ∧ idh ++ idl = id.setWidth 16 ∧ unpackBytes 8 d = encPayload len data

/-- 30_encoding R71: `enc_valid = 1` exactly in a step that performs `ENC`. -/
def Obligations.EncValidExactlyWhenAsked : Prop :=
  ∀ (s t : State) (w : StepWord) (rest : List Input), s.inputs = .word w :: rest → step s = .next t →
    (t.encValid = true ↔ w.getLsbD 89 = false ∧ w.getLsbD 88 = true)

/-- 40_encoder R100: the normalization of a payload of any length has eight bytes, those of the payload and then zeros. -/
def Obligations.NormalizeKeepsEightBytes : Prop :=
  ∀ p : List Byte, (normalizePayload p).length = 8 ∧
    ∀ k < 8, (normalizePayload p)[k]? = some (if h : k < p.length then p[k] else 0x00)

/-- The spec's derived sentence of 40_encoder R101: for a payload presented on the port, the other lanes holding anything, the normalized payload of
30_encoding R79 is `Normalize(p)`. -/
def Obligations.PresentedPayloadIsNormalized : Prop :=
  ∀ (p : List Byte) (data : Lanes), (∀ k < min p.length 8, p[k]? = some (lane data k)) →
    encPayload (BitVec.ofNat 4 (min p.length 15)) data = normalizePayload p

/-- 40_encoder R102: the split of an identifier, as bits and as the arithmetic the rule gives. -/
def Obligations.SplitIdentifierLittleEndian : Prop :=
  ∀ id : Id11, splitLo id = id.extractLsb' 0 8 ∧ splitHi id = (id.extractLsb' 8 3).setWidth 8 ∧
    (splitLo id).toNat = id.toNat &&& 0xFF ∧ (splitHi id).toNat = (id.toNat >>> 8) &&& 0xFF ∧
    splitLo 0x35E = 0x5E ∧ splitHi 0x35E = 0x03

/-- 40_encoder R105: the host presents the low 11 bits of a wider identifier. -/
def Obligations.HostIdentifierWraps : Prop :=
  ∀ n : Nat, (hostId n).toNat = n % 2 ^ 11

/-! ### RXB: the rows -/

/-- 41_decoder R121: `RXB.SOF`, its encoding, its register transfer and nothing else; and it is the only way out of the
sync scan. -/
def Obligations.SofStartsAnAttempt : Prop :=
  decode (.rxSel 0x0AA) = .ok .rxbSof ∧
  (∀ s : State, ∃ t, exec .rxbSof s = .next t ∧ (s.dec.ofs = 0 → exec (.rxb 0xAA) s = .next t) ∧
    t = { dec := { s.dec with ofs := 1 }, inputs := advance s.inputs, encOut := none, rxOut := .none,
          draws := s.draws + 1 }) ∧
  ∀ (s t : State) (i : Instr), s.dec.ofs = 0 → (i = .rst ∨ i = .rxn ∨ (∃ b, b ≠ 0xAA ∧ i = .rxb b) ∨
      ∃ id len data rx, rx ≠ some 0xAA#8 ∧ i = .enc id len data rx) →
    exec i s = .next t → t.dec.ofs = 0

/-- 41_decoder R122: `RXB.SKIP` discards a byte and writes nothing. -/
def Obligations.SkipDiscardsTheByte : Prop :=
  ∀ b : Byte, b ≠ 0xAA →
    decode (.rxSel (0#4 ++ b)) = .ok (.rxbSkip b) ∧
    ∀ s : State, ∃ t, exec (.rxbSkip b) s = .next t ∧ (s.dec.ofs = 0 → exec (.rxb b) s = .next t) ∧
      t = { dec := s.dec, inputs := advance s.inputs, encOut := none, rxOut := .none, draws := s.draws + 1 }

/-- 41_decoder R123: `RXB.CMD_OK`. -/
def Obligations.ValidCommandAdvances : Prop :=
  decode (.rxSel 0x1C8) = .ok .rxbCmdOk ∧
  ∀ s : State, ∃ t, exec .rxbCmdOk s = .next t ∧ (s.dec.ofs = 1 → exec (.rxb 0xC8) s = .next t) ∧
    t = { dec := { s.dec with ofs := 2 }, inputs := advance s.inputs, encOut := none, rxOut := .none,
          draws := s.draws + 1 }

/-- 41_decoder R124: `RXB.CMD_BAD` raises `InvalidCommand`: `ERR_CMD`, `ofs <- 0`, and nothing else written. The byte is
consumed even if it is `0xAA`: of `AA AA C8` the second byte gives `ERR_CMD` and the third is discarded. -/
def Obligations.BadCommandRaisesInvalidCommand : Prop :=
  (∀ b : Byte, b ≠ 0xC8 →
    decode (.rxSel (1#4 ++ b)) = .ok (.rxbCmdBad b) ∧
    ∀ s : State, ∃ t, exec (.rxbCmdBad b) s = .next t ∧ (s.dec.ofs = 1 → exec (.rxb b) s = .next t) ∧
      t = { dec := { s.dec with ofs := 0 }, inputs := advance s.inputs, encOut := none, rxOut := .errCmd,
            draws := s.draws + 1 }) ∧
  ∀ (s : State) (rest : List Input), s.dec.ofs = 0 → s.inputs = feed [0xAA, 0xAA, 0xC8] ++ rest →
    ∃ t u, Runs 2 s t ∧ t.rxOut = .errCmd ∧ Runs 3 s u ∧ u.rxOut = .none ∧ u.dec = s.dec ∧ u.inputs = rest

/-- 41_decoder R125: `RXB.IDL` stores the identifier low byte, any value. -/
def Obligations.IdlStoresTheLowByte : Prop :=
  ∀ b : Byte, decode (.rxSel (2#4 ++ b)) = .ok (.rxbIdl b) ∧
    ∀ s : State, ∃ t, exec (.rxbIdl b) s = .next t ∧ (s.dec.ofs = 2 → exec (.rxb b) s = .next t) ∧
      t = { dec := { s.dec with ofs := 3, idLo := b }, inputs := advance s.inputs, encOut := none, rxOut := .none,
            draws := s.draws + 1 }

/-- 41_decoder R126: `RXB.IDH` stores the identifier high byte, any value. -/
def Obligations.IdhStoresTheHighByte : Prop :=
  ∀ b : Byte, decode (.rxSel (3#4 ++ b)) = .ok (.rxbIdh b) ∧
    ∀ s : State, ∃ t, exec (.rxbIdh b) s = .next t ∧ (s.dec.ofs = 3 → exec (.rxb b) s = .next t) ∧
      t = { dec := { s.dec with ofs := 4, idHi := b }, inputs := advance s.inputs, encOut := none, rxOut := .none,
            draws := s.draws + 1 }

/-- 41_decoder R127: `RXB.DATA`, both rows of the table. Key `{4 + k, b}` selects the row of `ofs` 4..7 or 8..11; where `ofs`
is `4 + k`, the row writes the byte to `buf[ofs - 4]` and no other register of the file, and `ofs` goes up by one. -/
def Obligations.DataStoresThePayloadByte : Prop :=
  ∀ (b : Byte) (k : Fin 8), ∃ i : Instr,
    decode (.rxSel (BitVec.ofNat 4 (4 + k.val) ++ b)) = .ok i ∧
    (k.val < 4 → i = .rxbDataLo (BitVec.ofNat 2 k.val) b) ∧ (4 ≤ k.val → i = .rxbDataHi (BitVec.ofNat 2 k.val) b) ∧
    ∀ s : State, s.dec.ofs.toNat = 4 + k.val → ∃ t,
      exec i s = .next t ∧ exec (.rxb b) s = .next t ∧
      t.dec.ofs = s.dec.ofs + 1 ∧ t.dec.ofs.toNat = 5 + k.val ∧
      t.dec.buf[k] = b ∧ (∀ j : Fin 8, j ≠ k → t.dec.buf[j] = s.dec.buf[j]) ∧
      t.dec.idLo = s.dec.idLo ∧ t.dec.idHi = s.dec.idHi ∧
      t.rxOut = .none ∧ t.encOut = none ∧ t.inputs = advance s.inputs ∧ t.draws = s.draws + 1

/-- 41_decoder R128: `RXB.TAIL_OK` delivers the frame on the ports in its own step, unmasked, and only `ofs` is written. -/
def Obligations.ValidTailDeliversTheFrame : Prop :=
  decode (.rxSel 0xC55) = .ok .rxbTailOk ∧
  ∀ s : State, ∃ t, exec .rxbTailOk s = .next t ∧ (s.dec.ofs = 12 → exec (.rxb 0x55) s = .next t) ∧
    t = { dec := { s.dec with ofs := 0 }, inputs := advance s.inputs, encOut := none,
          rxOut := .frame (s.dec.idHi ++ s.dec.idLo) s.dec.buf, draws := s.draws + 1 } ∧
    t.rxStatus = 1 ∧ t.rxId = s.dec.idHi ++ s.dec.idLo ∧ (∀ k : Fin 8, lane t.rxData k.val = s.dec.buf[k]) ∧
    (s.dec.idHi ++ s.dec.idLo).toNat = s.dec.idLo.toNat ||| (s.dec.idHi.toNat <<< 8)

/-- 41_decoder R129: `RXB.TAIL_BAD` raises `InvalidTail`: `ERR_TAIL`, `ofs <- 0`, nothing else written, no frame. The byte
is consumed even if it is the `0xAA` of a next frame, whose `0xC8` is then discarded. -/
def Obligations.BadTailRaisesInvalidTail : Prop :=
  (∀ b : Byte, b ≠ 0x55 →
    decode (.rxSel (12#4 ++ b)) = .ok (.rxbTailBad b) ∧
    ∀ s : State, ∃ t, exec (.rxbTailBad b) s = .next t ∧ (s.dec.ofs = 12 → exec (.rxb b) s = .next t) ∧
      t = { dec := { s.dec with ofs := 0 }, inputs := advance s.inputs, encOut := none, rxOut := .errTail,
            draws := s.draws + 1 }) ∧
  ∀ (s : State) (rest : List Input), s.dec.ofs = 12 → s.inputs = feed [0xAA, 0xC8] ++ rest →
    ∃ t u, Runs 1 s t ∧ t.rxOut = .errTail ∧ Runs 2 s u ∧ u.rxOut = .none ∧ u.dec.ofs = 0 ∧ u.inputs = rest

/-- 30_encoding R77 as log entry 5 reads it (DEDUCED): a step that finds `ofs` in 13 to 15 answers as in the sync scan, and leaves
`ofs = 0` and every other register as it is. -/
def Obligations.UnreachableOfsRecovers : Prop :=
  (∀ (b : Byte) (x : BitVec 1) (s : State), ∃ t,
    exec (.rxbUnreachableD b) s = .next t ∧ exec (.rxbUnreachableEF x b) s = .next t ∧
    (13 ≤ s.dec.ofs.toNat → exec (.rxb b) s = .next t) ∧
    t = { dec := { s.dec with ofs := 0 }, inputs := advance s.inputs, encOut := none, rxOut := .none,
          draws := s.draws + 1 }) ∧
  (∀ s : State, 13 ≤ s.dec.ofs.toNat → exec .rxn s = .next
    { dec := { s.dec with ofs := 0 }, inputs := advance s.inputs, encOut := none, rxOut := .notReady,
      draws := s.draws + 1 })

/-! ### RXN -/

/-- 41_decoder R130: `RXN.NOT_READY` reports and writes nothing. -/
def Obligations.NoByteInHuntIsNotReady : Prop :=
  decode (.rxnOfs 0) = .ok .rxnNotReady ∧
  ∀ s : State, ∃ t, exec .rxnNotReady s = .next t ∧ (s.dec.ofs = 0 → exec .rxn s = .next t) ∧
    t = { dec := s.dec, inputs := advance s.inputs, encOut := none, rxOut := .notReady, draws := s.draws + 1 }

/-- 41_decoder R131: `RXN.WAIT` reports and writes nothing, at every `ofs` from 1 to 12, and any number of idle steps keeps
the partial frame. -/
def Obligations.NoByteInFrameWaits : Prop :=
  (∀ o : Ofs, 1 ≤ o.toNat → o.toNat ≤ 12 →
    decode (.rxnOfs o) = .ok (.rxnWait o) ∧
    ∀ s : State, ∃ t, exec (.rxnWait o) s = .next t ∧ (s.dec.ofs = o → exec .rxn s = .next t) ∧
      t = { dec := s.dec, inputs := advance s.inputs, encOut := none, rxOut := .wait, draws := s.draws + 1 }) ∧
  ∀ (n : Nat) (s : State) (rest : List Input), 1 ≤ s.dec.ofs.toNat → s.dec.ofs.toNat ≤ 12 →
    s.inputs = asmIdle (n + 1) ++ rest → ∃ t, Runs (n + 1) s t ∧ t.dec = s.dec ∧ t.rxOut = .wait ∧ t.inputs = rest

/-! ### The decoder as a whole -/

/-- 41_decoder R120, with `ofs` in 0 to 12 where no byte comes: `RXB` performs the row that its key selects, and `RXN` the row that `ofs` selects. -/
def Obligations.DecoderRunsTheSelectedRow : Prop :=
  (∀ (b : Byte) (s : State), ∃ i t, decode (.rxSel (s.dec.ofs ++ b)) = .ok i ∧
    exec i s = .next t ∧ exec (.rxb b) s = .next t) ∧
  (∀ s : State, s.dec.Legal → ∃ i t, decode (.rxnOfs s.dec.ofs) = .ok i ∧
    exec i s = .next t ∧ exec .rxn s = .next t)

/-- The spec's derived frame of 20_memory R54, and 10_state R22 to R24: what a step writes. `RXB` writes `ofs` and at most the one register that `ofs`
selects, `RXN` and the `ENC` part of a step write nothing, and only `RST` writes more. -/
def Obligations.RxbWritesAtMostOneField : Prop :=
  (∀ (b : Byte) (s t : State), exec (.rxb b) s = .next t →
    (s.dec.ofs ≠ 2 → t.dec.idLo = s.dec.idLo) ∧ (s.dec.ofs ≠ 3 → t.dec.idHi = s.dec.idHi) ∧
    ∀ k : Fin 8, s.dec.ofs.toNat ≠ 4 + k.val → t.dec.buf[k] = s.dec.buf[k]) ∧
  (∀ s t : State, s.dec.Legal → exec .rxn s = .next t → t.dec = s.dec) ∧
  (∀ (id : Id11) (len : Len) (data : Lanes) (b : Byte) (s t u : State),
    exec (.enc id len data (some b)) s = .next t → exec (.rxb b) s = .next u → t.dec = u.dec)

/-- 60_exceptions R170: the two exceptions, with their causes (R171, R172), that no other operation raises them, and that
there is no third kind: nothing else than a next state comes of any operation. -/
def Obligations.OnlyRxbRaisesItsTwoErrors : Prop :=
  (∀ (i : Instr) (s : State), ∃ t, exec i s = .next t) ∧
  (∀ (b : Byte) (s t : State), exec (.rxb b) s = .next t →
    (t.rxStatus = 2 ↔ s.dec.ofs = 1 ∧ b ≠ 0xC8) ∧ (t.rxStatus = 3 ↔ s.dec.ofs = 12 ∧ b ≠ 0x55)) ∧
  (∀ (i : Instr) (s t : State), (i = .rst ∨ i = .rxn ∨ ∃ id len data, i = .enc id len data none) →
    exec i s = .next t → t.rxStatus ≠ 2 ∧ t.rxStatus ≠ 3)

/-- 60_exceptions R174: taking either exception emits its code in the step of the offending byte, sets `ofs` to 0, and
writes no other register. -/
def Obligations.ErrorEntryWritesOnlyOfs : Prop :=
  ∀ (b : Byte) (s t : State), exec (.rxb b) s = .next t → (t.rxOut = .errCmd ∨ t.rxOut = .errTail) →
    t.dec = { s.dec with ofs := 0 } ∧ (t.rxOut = .errCmd ↔ s.dec.ofs = 1) ∧ (t.rxOut = .errTail ↔ s.dec.ofs = 12)

/-- The spec's derived law of 41_decoder R134, "Result partition": an `RXB` gives `NONE`, `FRAME`, `ERR_CMD` or `ERR_TAIL`, an `RXN` gives `NOT_READY` or `WAIT`, and
`FRAME`, `ERR_CMD` and `ERR_TAIL` leave `ofs = 0`; the same with an `ENC` in the step. -/
def Obligations.ResultPartition : Prop :=
  ∀ (rx : Option Byte) (s t : State) (i : Instr),
    (i = (match rx with | some b => Instr.rxb b | none => Instr.rxn) ∨ ∃ id len data, i = .enc id len data rx) →
    exec i s = .next t →
    (rx.isSome = true → t.rxStatus = 0 ∨ t.rxStatus = 1 ∨ t.rxStatus = 2 ∨ t.rxStatus = 3) ∧
    (rx = none → t.rxStatus = 4 ∨ t.rxStatus = 5) ∧
    (t.rxStatus = 1 ∨ t.rxStatus = 2 ∨ t.rxStatus = 3 → t.rxOfs = 0)

/-- 30_encoding R74 and R78: the status codes; 6 and 7 are never produced. -/
def Obligations.StatusCodes : Prop :=
  RxResult.none.code = 0 ∧ (∀ id p, (RxResult.frame id p).code = 1) ∧ RxResult.errCmd.code = 2 ∧
  RxResult.errTail.code = 3 ∧ RxResult.notReady.code = 4 ∧ RxResult.wait.code = 5 ∧
  ∀ s : State, s.rxStatus ≠ 6 ∧ s.rxStatus ≠ 7

/-- 41_decoder R139: an attempt ends with exactly the statuses that are results of the source's `decode`, with the result
the rule's table gives, and then the decoder is at `ofs = 0`, where the next attempt starts. -/
def Obligations.AttemptEndsWithASourceResult : Prop :=
  (∀ (id : Id16) (p : Vector Byte 8), (RxResult.frame id p).source = some (.ok id p)) ∧
  RxResult.errCmd.source = some .invalidCommand ∧ RxResult.errTail.source = some .invalidTail ∧
  RxResult.notReady.source = some .noFrameReadyYet ∧
  RxResult.none.source = none ∧ RxResult.wait.source = none ∧
  ∀ (s t : State) (r : SourceResult), step s = .next t → t.rxOut.source = some r → t.dec.ofs = 0

/-! ### Invariants -/

/-- The invariant of the machine holds at power-on. Of its three parts, that `ofs` is legal rests on 70_reset R190; that the
outputs agree with the registers rests on what `State.reset` shows before the first step, which is the model's choice
(DEDUCED, log entry 3). -/
def Obligations.InvariantAtPowerOn : Prop := State.reset.Inv

/-- Every step keeps the invariant (10_state R30 invariant 1, 41_decoder R134, 30_encoding R61, R63, R73, R76): `ofs` stays
in 0 to 12, and the outputs agree with the registers. -/
def Obligations.EveryStepKeepsTheInvariant : Prop :=
  ∀ s t : State, s.Inv → step s = .next t → t.Inv

/-- The spec's derived invariants of 10_state R30, 1 to 4: the registers hold the bytes the current attempt has accepted, after every operation;
and a delivered frame is made of those bytes. -/
def Obligations.RegistersHoldTheAcceptedBytes : Prop :=
  ∀ (bs : List Byte) (s t : State), s.dec.Accepted bs →
    (exec .rst s = .next t → t.dec.Accepted []) ∧
    ∀ (rx : Option Byte) (i : Instr),
      (i = (match rx with | some b => Instr.rxb b | none => Instr.rxn) ∨ ∃ id len data, i = .enc id len data rx) →
      exec i s = .next t →
      t.dec.Accepted (acceptedAfter bs rx) ∧
      ∀ (id : Id16) (p : Vector Byte 8), t.rxOut = .frame id p →
        rx = some 0x55 ∧ bs.length = 12 ∧ bs[2]? = some (id.extractLsb' 0 8) ∧ bs[3]? = some (id.extractLsb' 8 8) ∧
        ∀ k : Fin 8, bs[4 + k.val]? = some p[k]

/-- The spec's derived law of 10_state R30, "Stale values and reset values are therefore never observable". Two machines that differ only in registers the current
attempt has not written, presented with the same transactions, show a host the same in every step. -/
def Obligations.StaleRegistersAreNeverObservable : Prop :=
  ∀ (k : Nat) (s s' t t' : State), s.dec.Alike s'.dec → s.inputs = s'.inputs →
    Runs (k + 1) s t → Runs (k + 1) s' t' → t.observe = t'.observe ∧ t.dec.Alike t'.dec

/-! ### Runs -/

/-- The spec's derived law of 41_decoder R135, "Bounded return to HUNT": from a state with `ofs = n`, n in 1 to 12, the decoder is back at `ofs = 0` after at most `13 - n`
further `RXB` steps, whatever the bytes, with `RXN` steps anywhere among them. -/
def Obligations.BoundedReturnToHunt : Prop :=
  ∀ (xs : List (Option Byte)) (s : State) (rest : List Input),
    1 ≤ s.dec.ofs.toNat → s.dec.ofs.toNat ≤ 12 → s.inputs = asmRx xs ++ rest →
    13 - s.dec.ofs.toNat ≤ (rxBytes xs).length →
    ∃ k ≤ xs.length, (rxBytes (xs.take k)).length ≤ 13 - s.dec.ofs.toNat ∧ ∃ t, Runs k s t ∧ t.dec.ofs = 0

/-- The spec's derived law of 41_decoder R136, "Round trip". For every identifier and every payload of any length, the thirteen bytes of the encoded
frame, fed from any state with `ofs = 0` with `RXN` steps anywhere among them, give `FRAME` with that identifier and the
normalized payload at the last byte, and no frame and no error before. -/
def Obligations.RoundTrip : Prop :=
  ∀ (ident : Id11) (p : List Byte) (xs : List (Option Byte)) (s : State) (rest : List Input),
    s.dec.ofs = 0 → rxBytes xs = (encodeFrame ident (normalizePayload p)).dropLast →
    s.inputs = asmRx (xs ++ [some 0x55]) ++ rest →
    (∃ (t : State) (q : Vector Byte 8), Runs (xs.length + 1) s t ∧ t.rxOut = .frame (ident.setWidth 16) q ∧
      q.toList = normalizePayload p ∧ t.dec.ofs = 0 ∧ t.inputs = rest) ∧
    (∀ (k : Nat) (t : State), k < xs.length → Runs (k + 1) s t →
      (∀ b, xs[k]? = some (some b) → t.rxOut = .none) ∧
      (xs[k]? = some none → t.rxOut = .notReady ∨ t.rxOut = .wait))

/-- 30_encoding R81: `LOOP` from a state with `ofs = 0`: the `ENC` step, whose frame is read from its port, then the thirteen
bytes, deliver the identifier and the normalized payload. -/
def Obligations.LoopDeliversTheFrame : Prop :=
  ∀ (ident : Id11) (p : List Byte) (s : State) (rest : List Input),
    s.dec.ofs = 0 → s.inputs = asmLoop ident p ++ rest →
    ∃ (u t : State) (q : Vector Byte 8), Runs 1 s u ∧ u.encValid = true ∧
      u.inputs = feed (unpackBytes 13 u.encFrame) ++ rest ∧
      Runs 14 s t ∧ t.rxOut = .frame (ident.setWidth 16) q ∧ q.toList = normalizePayload p ∧ t.dec.ofs = 0 ∧ t.inputs = rest

/-- The spec's derived law of 41_decoder R137, "Resynchronization after junk": from `ofs = 0`, bytes without `0xAA` and then a wire frame give that frame at the end, and `NONE` at
every byte before. -/
def Obligations.ResynchronizesAfterJunk : Prop :=
  ∀ (junk : List Byte) (f : FrameBits) (s : State) (rest : List Input), s.dec.ofs = 0 → (0xAA#8 ∉ junk) →
    lane f 0 = 0xAA → lane f 1 = 0xC8 → lane f 12 = 0x55 → s.inputs = feed (junk ++ unpackBytes 13 f) ++ rest →
    (∃ (t : State) (q : Vector Byte 8), Runs (junk.length + 13) s t ∧ t.rxOut = .frame (lane f 3 ++ lane f 2) q ∧
      (∀ k : Fin 8, q[k] = lane f (4 + k.val)) ∧ t.dec.ofs = 0 ∧ t.inputs = rest) ∧
    (∀ (k : Nat) (t : State), k < junk.length + 12 → Runs (k + 1) s t → t.rxOut = .none)

/-- The model's choice (log entry 8) of what `WIRE_FRAME` means, from 30_encoding R60 and R81: `WIRE_FRAME` in its own step is the `RXB` of the start sentinel and leaves the
other twelve bytes to be presented; from `ofs = 0` the thirteenth step delivers the frame's fields. -/
def Obligations.WireFrameIsFedByteByByte : Prop :=
  (∀ (idl idh : Byte) (data : Lanes) (s : State), ∃ t u, exec (.wireFrame idl idh data) s = .next t ∧
    exec (.rxb 0xAA) s = .next u ∧ t.dec = u.dec ∧ t.rxOut = u.rxOut ∧ t.encOut = none ∧ t.draws = s.draws + 1 ∧
    t.inputs = feed ([0xC8, idl, idh] ++ unpackBytes 8 data ++ [0x55]) ++ s.inputs.drop 1) ∧
  (∀ (idl idh : Byte) (data : Lanes) (s : State) (rest : List Input), s.dec.ofs = 0 →
    s.inputs = .frame (packWire idl idh data) :: rest →
    ∃ (t : State) (q : Vector Byte 8), Runs 13 s t ∧ t.rxOut = .frame (idh ++ idl) q ∧ q.toList = unpackBytes 8 data ∧
      t.dec.ofs = 0 ∧ t.inputs = rest)

/-- 42_control R161 corner cases and 70_reset R198: a reset in the middle of a frame drops it without a report, and the
next byte meets the sync scan whatever it is. -/
def Obligations.RstAbandonsThePartialFrame : Prop :=
  ∀ (b : Byte) (s : State) (rest : List Input), s.inputs = asmRst ++ asmRxb b ++ rest →
    ∃ t u, Runs 1 s t ∧ t.rxOut = .none ∧ t.encValid = false ∧ Runs 2 s u ∧ u.rxOut = .none ∧ u.inputs = rest ∧
      u.dec = { DecState.reset with ofs := if b = 0xAA then 1 else 0 }

/-- The model's choice (DESIGN CHOICE, log entry 6): a row `RXB.DATA` asked for alone, in whatever state, writes the payload
register that its own operand selects and sets `ofs` to that operand's successor, and nothing else. Where `ofs` selects the
row, this is 41_decoder R127 (`DataStoresThePayloadByte`). -/
def Obligations.DataRowWritesItsOperandsRegister : Prop :=
  ∀ (b : Byte) (s : State) (k : Fin 8) (i : Instr),
    i = (if k.val < 4 then .rxbDataLo (BitVec.ofNat 2 k.val) b else .rxbDataHi (BitVec.ofNat 2 k.val) b) →
    exec i s = .next
      { dec := { s.dec with ofs := BitVec.ofNat 4 (5 + k.val), buf := s.dec.buf.set k b }
        inputs := advance s.inputs, encOut := none, rxOut := .none, draws := s.draws + 1 }
end

