-- ==== Sys2Proof/Laws/Encoding.lean ====
section
/-!
SUPPORT. The fields of the packed words: what each field reads back as, said once, so that no later proof takes a
concatenation apart.
-/

namespace Sys2Proof

/-- A field of a concatenation that lies in its low part. -/
theorem extract_append_low {m n : Nat} (x : BitVec m) (y : BitVec n) (start len : Nat) (h : start + len ≤ n) :
    (x ++ y).extractLsb' start len = y.extractLsb' start len := by
  apply BitVec.eq_of_getLsbD_eq
  intro i hi
  have : start + i < n := by omega
  simp [BitVec.getLsbD_append, this]

/-- A field of a concatenation that lies in its high part. -/
theorem extract_append_high {m n : Nat} (x : BitVec m) (y : BitVec n) (start len : Nat) (h : n ≤ start) :
    (x ++ y).extractLsb' start len = x.extractLsb' (start - n) len := by
  apply BitVec.eq_of_getLsbD_eq
  intro i hi
  have h1 : ¬ start + i < n := by omega
  have h2 : start + i - n = start - n + i := by omega
  simp [BitVec.getLsbD_append, h1, h2]

/-- The whole of a vector is a field of it. -/
@[simp] theorem extract_whole {n : Nat} (x : BitVec n) : x.extractLsb' 0 n = x := by
  apply BitVec.eq_of_getLsbD_eq
  intro i hi
  simp [hi]

section StepWord
variable (r e v : BitVec 1) (id : Id11) (len : Len) (data : Lanes) (b : Byte)

@[simp] theorem packStepWord_rst : StepWord.rst (packStepWord r e v id len data b) = r.getLsbD 0 := by
  show (r ++ e ++ v ++ id ++ len ++ data ++ b : BitVec (1 + 1 + 1 + 11 + 4 + 64 + 8)).getLsbD 89 = _
  simp only [BitVec.getLsbD_append]; rfl

@[simp] theorem packStepWord_encReq : StepWord.encReq (packStepWord r e v id len data b) = e.getLsbD 0 := by
  show (r ++ e ++ v ++ id ++ len ++ data ++ b : BitVec (1 + 1 + 1 + 11 + 4 + 64 + 8)).getLsbD 88 = _
  simp only [BitVec.getLsbD_append]; rfl

@[simp] theorem packStepWord_rxValid : StepWord.rxValid (packStepWord r e v id len data b) = v.getLsbD 0 := by
  show (r ++ e ++ v ++ id ++ len ++ data ++ b : BitVec (1 + 1 + 1 + 11 + 4 + 64 + 8)).getLsbD 87 = _
  simp only [BitVec.getLsbD_append]; rfl

@[simp] theorem packStepWord_encId : StepWord.encId (packStepWord r e v id len data b) = id := by
  show (r ++ e ++ v ++ id ++ len ++ data ++ b : BitVec (1 + 1 + 1 + 11 + 4 + 64 + 8)).extractLsb' 76 11 = _
  rw [extract_append_high _ _ _ _ (by omega), extract_append_high _ _ _ _ (by omega),
    extract_append_high _ _ _ _ (by omega), extract_append_low _ _ _ _ (by omega)]
  exact extract_whole id

@[simp] theorem packStepWord_encLen : StepWord.encLen (packStepWord r e v id len data b) = len := by
  show (r ++ e ++ v ++ id ++ len ++ data ++ b : BitVec (1 + 1 + 1 + 11 + 4 + 64 + 8)).extractLsb' 72 4 = _
  rw [extract_append_high _ _ _ _ (by omega), extract_append_high _ _ _ _ (by omega),
    extract_append_low _ _ _ _ (by omega)]
  exact extract_whole len

@[simp] theorem packStepWord_encData : StepWord.encData (packStepWord r e v id len data b) = data := by
  show (r ++ e ++ v ++ id ++ len ++ data ++ b : BitVec (1 + 1 + 1 + 11 + 4 + 64 + 8)).extractLsb' 8 64 = _
  rw [extract_append_high _ _ _ _ (by omega), extract_append_low _ _ _ _ (by omega)]
  exact extract_whole data

@[simp] theorem packStepWord_rxByte : StepWord.rxByte (packStepWord r e v id len data b) = b := by
  show (r ++ e ++ v ++ id ++ len ++ data ++ b : BitVec (1 + 1 + 1 + 11 + 4 + 64 + 8)).extractLsb' 0 8 = _
  rw [extract_append_low _ _ _ _ (by omega)]
  exact extract_whole b

/-- A step word is its fields (30_encoding R69). -/
theorem packStepWord_fields (w : StepWord) : w = packStepWord (w.extractLsb' 89 1) (w.extractLsb' 88 1)
    (w.extractLsb' 87 1) (w.extractLsb' 76 11) (w.extractLsb' 72 4) (w.extractLsb' 8 64) (w.extractLsb' 0 8) := by
  apply BitVec.eq_of_getLsbD_eq
  intro i hi
  show _ = (w.extractLsb' 89 1 ++ w.extractLsb' 88 1 ++ w.extractLsb' 87 1 ++ w.extractLsb' 76 11 ++
    w.extractLsb' 72 4 ++ w.extractLsb' 8 64 ++ w.extractLsb' 0 8 : BitVec (1 + 1 + 1 + 11 + 4 + 64 + 8)).getLsbD i
  simp only [BitVec.getLsbD_append, BitVec.getLsbD_extractLsb']
  split_ifs <;> (rw [decide_eq_true (by omega), Bool.true_and]; congr 1; omega)

end StepWord

section Key
variable (o : Ofs) (b : Byte)

@[simp] theorem packKey_byte : RxKey.byte (packKey o b) = b :=
  (extract_append_low o b 0 8 (by omega)).trans (extract_whole b)

@[simp] theorem packKey_ofs : (packKey o b).extractLsb' 8 4 = o :=
  (extract_append_high o b 8 4 (by omega)).trans (extract_whole o)

/-- A field of `ofs` is a field of the key. -/
theorem packKey_field (start len : Nat) :
    (packKey o b).extractLsb' (8 + start) len = o.extractLsb' start len := by
  have h := extract_append_high o b (8 + start) len (by omega)
  rwa [Nat.add_sub_cancel_left] at h

/-- A mask that leaves the byte open tests `ofs` alone. -/
theorem packKey_and_ofs (m : Ofs) : packKey o b &&& packKey m 0 = packKey (o &&& m) 0 := by
  show (o ++ b : BitVec (4 + 8)) &&& (m ++ (0 : Byte)) = _
  rw [BitVec.and_append]
  simp [packKey]

end Key

section Wire
variable (idl idh : Byte) (data : Lanes)

@[simp] theorem packWire_sof : lane (packWire idl idh data) 0 = Config.sof := by
  show (Config.eof ++ data ++ idh ++ idl ++ Config.cmd ++ Config.sof : BitVec (8 + 64 + 8 + 8 + 8 + 8)).extractLsb' 0 8 = _
  rw [extract_append_low _ _ _ _ (by omega)]
  exact extract_whole _

@[simp] theorem packWire_cmd : lane (packWire idl idh data) 1 = Config.cmd := by
  show (Config.eof ++ data ++ idh ++ idl ++ Config.cmd ++ Config.sof : BitVec (8 + 64 + 8 + 8 + 8 + 8)).extractLsb' 8 8 = _
  rw [extract_append_high _ _ _ _ (by omega), extract_append_low _ _ _ _ (by omega)]
  exact extract_whole _

@[simp] theorem packWire_idl : lane (packWire idl idh data) 2 = idl := by
  show (Config.eof ++ data ++ idh ++ idl ++ Config.cmd ++ Config.sof : BitVec (8 + 64 + 8 + 8 + 8 + 8)).extractLsb' 16 8 = _
  rw [extract_append_high _ _ _ _ (by omega), extract_append_high _ _ _ _ (by omega),
    extract_append_low _ _ _ _ (by omega)]
  exact extract_whole _

@[simp] theorem packWire_idh : lane (packWire idl idh data) 3 = idh := by
  show (Config.eof ++ data ++ idh ++ idl ++ Config.cmd ++ Config.sof : BitVec (8 + 64 + 8 + 8 + 8 + 8)).extractLsb' 24 8 = _
  rw [extract_append_high _ _ _ _ (by omega), extract_append_high _ _ _ _ (by omega),
    extract_append_high _ _ _ _ (by omega), extract_append_low _ _ _ _ (by omega)]
  exact extract_whole _

@[simp] theorem packWire_data : (packWire idl idh data).extractLsb' 32 64 = data := by
  show (Config.eof ++ data ++ idh ++ idl ++ Config.cmd ++ Config.sof : BitVec (8 + 64 + 8 + 8 + 8 + 8)).extractLsb' 32 64 = _
  rw [extract_append_high _ _ _ _ (by omega), extract_append_high _ _ _ _ (by omega),
    extract_append_high _ _ _ _ (by omega), extract_append_high _ _ _ _ (by omega),
    extract_append_low _ _ _ _ (by omega)]
  exact extract_whole _

@[simp] theorem packWire_eof : lane (packWire idl idh data) 12 = Config.eof := by
  show (Config.eof ++ data ++ idh ++ idl ++ Config.cmd ++ Config.sof : BitVec (8 + 64 + 8 + 8 + 8 + 8)).extractLsb' 96 8 = _
  rw [extract_append_high _ _ _ _ (by omega), extract_append_high _ _ _ _ (by omega),
    extract_append_high _ _ _ _ (by omega), extract_append_high _ _ _ _ (by omega),
    extract_append_high _ _ _ _ (by omega)]
  exact extract_whole _

/-- Wire offsets 4 to 11 are the payload lanes. -/
theorem packWire_payload (k : Nat) (h : k < 8) : lane (packWire idl idh data) (4 + k) = lane data k := by
  have h2 : 8 * (4 + k) - 8 - 8 - 8 - 8 = 8 * k := by omega
  show (Config.eof ++ data ++ idh ++ idl ++ Config.cmd ++ Config.sof :
    BitVec (8 + 64 + 8 + 8 + 8 + 8)).extractLsb' (8 * (4 + k)) 8 = data.extractLsb' (8 * k) 8
  rw [extract_append_high _ _ _ _ (by omega), extract_append_high _ _ _ _ (by omega),
    extract_append_high _ _ _ _ (by omega), extract_append_high _ _ _ _ (by omega),
    extract_append_low _ _ _ _ (by omega), h2]

/-- Thirteen bytes are their fixed bytes and their fields (30_encoding R60). -/
theorem packWire_fields (f : FrameBits) (h0 : lane f 0 = Config.sof) (h1 : lane f 1 = Config.cmd)
    (h12 : lane f 12 = Config.eof) : f = packWire (lane f 2) (lane f 3) (f.extractLsb' 32 64) := by
  have h : f = (lane f 12 ++ f.extractLsb' 32 64 ++ lane f 3 ++ lane f 2 ++ lane f 1 ++ lane f 0 :
      BitVec (8 + 64 + 8 + 8 + 8 + 8)) := by
    apply BitVec.eq_of_getLsbD_eq
    intro i hi
    simp only [lane, BitVec.getLsbD_append, BitVec.getLsbD_extractLsb']
    split_ifs <;> (rw [decide_eq_true (by omega), Bool.true_and]; congr 1; omega)
  rw [h0, h1, h12] at h
  exact h

end Wire

end Sys2Proof
end

