-- ==== Sys2Proof/Laws/State.lean ====
section
/-!
SUPPORT. One lemma per field per update of the decoder's registers, of an operation's answer and of the state, all true by
rfl, so that no later proof unfolds an update.
-/

namespace Sys2Proof.Machine

@[simp] theorem DecState.setOfs_ofs (n : Ofs) (d : DecState) : (d.setOfs n).ofs = n := rfl
@[simp] theorem DecState.setOfs_idLo (n : Ofs) (d : DecState) : (d.setOfs n).idLo = d.idLo := rfl
@[simp] theorem DecState.setOfs_idHi (n : Ofs) (d : DecState) : (d.setOfs n).idHi = d.idHi := rfl
@[simp] theorem DecState.setOfs_buf (n : Ofs) (d : DecState) : (d.setOfs n).buf = d.buf := rfl
@[simp] theorem DecState.setOfs_id (n : Ofs) (d : DecState) : (d.setOfs n).id = d.id := rfl
@[simp] theorem DecState.setOfs_setOfs (m n : Ofs) (d : DecState) : (d.setOfs m).setOfs n = d.setOfs n := rfl

@[simp] theorem DecState.setIdLo_ofs (b : Byte) (d : DecState) : (d.setIdLo b).ofs = d.ofs := rfl
@[simp] theorem DecState.setIdLo_idLo (b : Byte) (d : DecState) : (d.setIdLo b).idLo = b := rfl
@[simp] theorem DecState.setIdLo_idHi (b : Byte) (d : DecState) : (d.setIdLo b).idHi = d.idHi := rfl
@[simp] theorem DecState.setIdLo_buf (b : Byte) (d : DecState) : (d.setIdLo b).buf = d.buf := rfl

@[simp] theorem DecState.setIdHi_ofs (b : Byte) (d : DecState) : (d.setIdHi b).ofs = d.ofs := rfl
@[simp] theorem DecState.setIdHi_idLo (b : Byte) (d : DecState) : (d.setIdHi b).idLo = d.idLo := rfl
@[simp] theorem DecState.setIdHi_idHi (b : Byte) (d : DecState) : (d.setIdHi b).idHi = b := rfl
@[simp] theorem DecState.setIdHi_buf (b : Byte) (d : DecState) : (d.setIdHi b).buf = d.buf := rfl

@[simp] theorem DecState.setBuf_ofs (k : Fin 8) (b : Byte) (d : DecState) : (d.setBuf k b).ofs = d.ofs := rfl
@[simp] theorem DecState.setBuf_idLo (k : Fin 8) (b : Byte) (d : DecState) : (d.setBuf k b).idLo = d.idLo := rfl
@[simp] theorem DecState.setBuf_idHi (k : Fin 8) (b : Byte) (d : DecState) : (d.setBuf k b).idHi = d.idHi := rfl
@[simp] theorem DecState.setBuf_buf (k : Fin 8) (b : Byte) (d : DecState) : (d.setBuf k b).buf = d.buf.set k b := rfl

/-- Reading `buf[k]` after `buf[k] <- b` gives `b`. -/
theorem DecState.setBuf_same (k : Fin 8) (b : Byte) (d : DecState) : (d.setBuf k b).buf[k] = b := by simp

/-- Writing `buf[k]` leaves every other payload register. -/
theorem DecState.setBuf_other {j k : Fin 8} (h : j ≠ k) (b : Byte) (d : DecState) : (d.setBuf k b).buf[j] = d.buf[j] := by
  have : k.val ≠ j.val := fun e => h (Fin.ext e.symm)
  simp [this]

@[simp] theorem DecState.reset_ofs : DecState.reset.ofs = 0 := rfl
@[simp] theorem DecState.reset_idLo : DecState.reset.idLo = 0 := rfl
@[simp] theorem DecState.reset_idHi : DecState.reset.idHi = 0 := rfl
@[simp] theorem DecState.reset_buf : DecState.reset.buf = #v[0, 0, 0, 0, 0, 0, 0, 0] := rfl

@[simp] theorem emit_next (r : RxResult) (d : DecState) : (emit r d).next = d := rfl
@[simp] theorem emit_result (r : RxResult) (d : DecState) : (emit r d).result = r := rfl
@[simp] theorem raise_next (e : FrameError) (d : DecState) : (raise e d).next = d.setOfs 0 := rfl
@[simp] theorem raise_result (e : FrameError) (d : DecState) : (raise e d).result = e.report := rfl

@[simp] theorem commit_dec (e : Option FrameBits) (r : DecResult) (s : State) : (s.commit e r).dec = r.next := rfl
@[simp] theorem commit_inputs (e : Option FrameBits) (r : DecResult) (s : State) :
    (s.commit e r).inputs = advance s.inputs := rfl
@[simp] theorem commit_encOut (e : Option FrameBits) (r : DecResult) (s : State) : (s.commit e r).encOut = e := rfl
@[simp] theorem commit_rxOut (e : Option FrameBits) (r : DecResult) (s : State) : (s.commit e r).rxOut = r.result := rfl
@[simp] theorem commit_draws (e : Option FrameBits) (r : DecResult) (s : State) : (s.commit e r).draws = s.draws + 1 := rfl

@[simp] theorem reset_dec : State.reset.dec = DecState.reset := rfl
@[simp] theorem reset_inputs : State.reset.inputs = [] := rfl
@[simp] theorem reset_encOut : State.reset.encOut = none := rfl
@[simp] theorem reset_rxOut : State.reset.rxOut = .none := rfl

end Sys2Proof.Machine
end

