-- ==== Sys2Proof/Laws/Ops.lean ====
section
/-!
SUPPORT. What the shared operations can do, each said once: the host's transactions, the byte lanes, the decoder's step,
and what a step of the machine answers.
-/

namespace Sys2Proof.Machine

/-! ### Transactions -/

@[simp] theorem advance_nil : advance [] = [] := rfl
@[simp] theorem advance_word (w : StepWord) (rest : List Input) : advance (.word w :: rest) = rest := rfl
@[simp] theorem advance_frame (f : FrameBits) (rest : List Input) :
    advance (.frame f :: rest) = feed ((unpackBytes 13 f).drop 1) ++ rest := rfl

@[simp] theorem feed_nil : feed [] = [] := rfl
@[simp] theorem feed_cons (b : Byte) (bs : List Byte) : feed (b :: bs) = .word (rxWord (some b)) :: feed bs := rfl
@[simp] theorem asmRx_nil : asmRx [] = [] := rfl
@[simp] theorem asmRx_cons (x : Option Byte) (xs : List (Option Byte)) : asmRx (x :: xs) = .word (rxWord x) :: asmRx xs := rfl

/-- Feeding bytes is presenting them to the decoder with no idle step among them. -/
theorem feed_eq_asmRx (bs : List Byte) : feed bs = asmRx (bs.map some) := by
  simp [feed, asmRx, List.map_map, Function.comp_def]

theorem asmRx_append (xs ys : List (Option Byte)) : asmRx (xs ++ ys) = asmRx xs ++ asmRx ys := by simp [asmRx]

theorem asmRx_length (xs : List (Option Byte)) : (asmRx xs).length = xs.length := by simp [asmRx]

@[simp] theorem rxBytes_nil : rxBytes [] = [] := rfl
@[simp] theorem rxBytes_none (xs : List (Option Byte)) : rxBytes (none :: xs) = rxBytes xs := rfl
@[simp] theorem rxBytes_some (b : Byte) (xs : List (Option Byte)) : rxBytes (some b :: xs) = b :: rxBytes xs := rfl

@[simp] theorem rxBytes_append (xs ys : List (Option Byte)) : rxBytes (xs ++ ys) = rxBytes xs ++ rxBytes ys := by
  induction xs with
  | nil => rfl
  | cons x xs ih => cases x <;> simp [ih]

@[simp] theorem rxBytes_map_some (bs : List Byte) : rxBytes (bs.map some) = bs := by
  induction bs with
  | nil => rfl
  | cons b bs ih => simp [ih]

/-! ### Byte lanes -/

/-- A byte packed at the head of a port is lane 0, and every other lane moves up by one. -/
theorem packBytes_getLsbD_cons (w : Nat) (b : Byte) (bs : List Byte) (i : Nat) :
    (packBytes w (b :: bs)).getLsbD i =
      if i < 8 then (decide (i < w) && b.getLsbD i) else (decide (i < w) && (packBytes w bs).getLsbD (i - 8)) := by
  simp only [packBytes, BitVec.getLsbD_or, BitVec.getLsbD_shiftLeft, BitVec.getLsbD_setWidth]
  by_cases h : i < 8
  · simp [h]
  · have hb : b.getLsbD i = false := BitVec.getLsbD_of_ge b i (by omega)
    simp [h, hb]

/-- Lane `k` of packed bytes is the byte at index `k`, where the port is wide enough. -/
theorem lane_packBytes (w : Nat) (bs : List Byte) (k : Nat) (h : 8 * k + 8 ≤ w) :
    lane (packBytes w bs) k = bs.getD k 0 := by
  induction bs generalizing k with
  | nil => simp [packBytes, lane]
  | cons b bs ih =>
    apply BitVec.eq_of_getLsbD_eq
    intro i hi
    simp only [lane, BitVec.getLsbD_extractLsb', hi, decide_true, Bool.true_and]
    rw [packBytes_getLsbD_cons]
    cases k with
    | zero =>
      have : 8 * 0 + i < w := by omega
      simp only [this, decide_true, Bool.true_and]
      simp [hi]
    | succ k =>
      have h1 : ¬ 8 * (k + 1) + i < 8 := by omega
      have h2 : 8 * (k + 1) + i < w := by omega
      have h3 : 8 * (k + 1) + i - 8 = 8 * k + i := by omega
      have := congrArg (fun v => v.getLsbD i) (ih k (by omega))
      simp only [lane, BitVec.getLsbD_extractLsb', hi, decide_true, Bool.true_and] at this
      simp [h1, h2, h3, this]

/-- Unpacking the lanes that bytes were packed into gives the bytes back. -/
theorem unpackBytes_packBytes (w : Nat) (bs : List Byte) (h : 8 * bs.length ≤ w) :
    unpackBytes bs.length (packBytes w bs) = bs := by
  apply List.ext_getElem
  · simp [unpackBytes]
  · intro k h1 h2
    simp only [unpackBytes, List.getElem_map, List.getElem_range]
    rw [lane_packBytes w bs k (by omega)]
    simp [List.getD, h2]

@[simp] theorem unpackBytes_length {w : Nat} (n : Nat) (v : BitVec w) : (unpackBytes n v).length = n := by simp [unpackBytes]

/-! ### The decoder's step -/

/-- All that `RXB` can do, row by row (30_encoding R75, R77): exactly one of these cases holds. -/
theorem decByte_cases (b : Byte) (d : DecState) :
    (d.ofs = 0 ∧ b = Config.sof ∧ decByte b d = ⟨d.setOfs 1, .none⟩) ∨
    (d.ofs = 0 ∧ b ≠ Config.sof ∧ decByte b d = ⟨d, .none⟩) ∨
    (d.ofs = 1 ∧ b = Config.cmd ∧ decByte b d = ⟨d.setOfs 2, .none⟩) ∨
    (d.ofs = 1 ∧ b ≠ Config.cmd ∧ decByte b d = ⟨d.setOfs 0, .errCmd⟩) ∨
    (d.ofs = 2 ∧ decByte b d = ⟨(d.setIdLo b).setOfs 3, .none⟩) ∨
    (d.ofs = 3 ∧ decByte b d = ⟨(d.setIdHi b).setOfs 4, .none⟩) ∨
    (∃ k : Fin 8, d.ofs.toNat = 4 + k.val ∧
      decByte b d = ⟨(d.setBuf k b).setOfs (BitVec.ofNat 4 (5 + k.val)), .none⟩) ∨
    (d.ofs = 12 ∧ b = Config.eof ∧ decByte b d = ⟨d.setOfs 0, .frame d.id d.buf⟩) ∨
    (d.ofs = 12 ∧ b ≠ Config.eof ∧ decByte b d = ⟨d.setOfs 0, .errTail⟩) ∨
    (13 ≤ d.ofs.toNat ∧ decByte b d = ⟨d.setOfs 0, .none⟩) := by
  unfold decByte hunt
  by_cases h0 : d.ofs = 0
  · by_cases hb : b = Config.sof
    · exact .inl ⟨h0, hb, by simp [h0, hb, rxbSof, emit]⟩
    · exact .inr (.inl ⟨h0, hb, by simp [h0, hb, rxbSkip, emit]⟩)
  by_cases h1 : d.ofs = 1
  · by_cases hb : b = Config.cmd
    · exact .inr (.inr (.inl ⟨h1, hb, by simp [h1, hb, rxbCmdOk, emit]⟩))
    · exact .inr (.inr (.inr (.inl ⟨h1, hb, by simp [h1, hb, rxbCmdBad, raise, emit, FrameError.report]⟩)))
  by_cases h2 : d.ofs = 2
  · exact .inr (.inr (.inr (.inr (.inl ⟨h2, by simp [h2, rxbIdl, emit]⟩))))
  by_cases h3 : d.ofs = 3
  · exact .inr (.inr (.inr (.inr (.inr (.inl ⟨h3, by simp [h3, rxbIdh, emit]⟩)))))
  have hge : 4 ≤ d.ofs.toNat := by
    have := BitVec.toNat_ne.mp h0; have := BitVec.toNat_ne.mp h1
    have := BitVec.toNat_ne.mp h2; have := BitVec.toNat_ne.mp h3
    simp at *; omega
  by_cases h4 : d.ofs.toNat < 12
  · refine .inr (.inr (.inr (.inr (.inr (.inr (.inl ⟨⟨d.ofs.toNat - 4, by omega⟩, ?_, ?_⟩))))))
    · simp; omega
    · rw [if_neg h0, if_neg h1, if_neg h2, if_neg h3, dif_pos h4]; rfl
  by_cases h12 : d.ofs = 12
  · by_cases hb : b = Config.eof
    · exact .inr (.inr (.inr (.inr (.inr (.inr (.inr (.inl ⟨h12, hb, by simp [h12, hb, rxbTailOk, emit]⟩)))))))
    · exact .inr (.inr (.inr (.inr (.inr (.inr (.inr (.inr (.inl
        ⟨h12, hb, by simp [h12, hb, rxbTailBad, raise, emit, FrameError.report]⟩))))))))
  · refine .inr (.inr (.inr (.inr (.inr (.inr (.inr (.inr (.inr ⟨?_, ?_⟩))))))))
    · have := BitVec.toNat_ne.mp h12; simp at *; omega
    · rw [if_neg h0, if_neg h1, if_neg h2, if_neg h3, dif_neg h4, if_neg h12]
      by_cases hb : b = Config.sof <;> simp [recover, hb, rxbSof, rxbSkip, emit]

/-- All that `RXN` can do (30_encoding R76, R77). -/
theorem decNone_cases (d : DecState) :
    (d.ofs = 0 ∧ decNone d = ⟨d, .notReady⟩) ∨
    (d.ofs ≠ 0 ∧ d.ofs.toNat ≤ 12 ∧ decNone d = ⟨d, .wait⟩) ∨
    (13 ≤ d.ofs.toNat ∧ decNone d = ⟨d.setOfs 0, .notReady⟩) := by
  unfold decNone
  by_cases h0 : d.ofs = 0
  · exact .inl ⟨h0, by simp [h0, rxnNotReady, emit]⟩
  by_cases h : d.ofs.toNat ≤ 12
  · exact .inr (.inl ⟨h0, h, by rw [if_neg h0, if_pos h]; rfl⟩)
  · exact .inr (.inr ⟨by omega, by rw [if_neg h0, if_neg h]; simp [recover, rxnNotReady, emit]⟩)

/-! ### The step of the machine -/

/-- Where the next transaction is a step word, the step performs the operation it selects (42_control R160). -/
theorem step_word {s : State} {w : StepWord} {rest : List Input} (h : s.inputs = .word w :: rest) :
    step s = exec (decodeStepWord w) s := by
  simp [step, fetchInstr, h]

/-- A step word that presents a byte, or none, and asks for nothing else (30_encoding R69, R80). -/
theorem decodeStepWord_rxWord (x : Option Byte) :
    decodeStepWord (rxWord x) = match x with | some b => .rxb b | none => .rxn := by
  cases x <;> simp [rxWord, decodeStepWord]

/-- A step that presents a byte, or none, is the decoder's step (42_control R160). -/
theorem step_rxWord {s : State} {x : Option Byte} {rest : List Input} (h : s.inputs = .word (rxWord x) :: rest) :
    step s = .next (s.commit none (decStep x s.dec)) := by
  rw [step_word h, decodeStepWord_rxWord]
  cases x <;> rfl

@[simp] theorem run_zero (s : State) : Host.Core.run core 0 s = .next s := rfl

/-- A run of one step more, from the step that comes first. -/
theorem run_succ {k : Nat} {s t : State} (h : step s = .next t) :
    Host.Core.run core (k + 1) s = Host.Core.run core k t := by
  have : core.step s = .next t := h
  simp only [Host.Core.run, this]

end Sys2Proof.Machine
end

