-- ==== Sys2Proof/Laws/PerInstr.lean ====
section
/-!
SUPPORT. A statement made for each instruction as syntax: its encoding lies in its own row of spec/opcode_table.json.
-/

namespace Sys2Proof.Laws.InRow

/-- The match value and the mask of each instruction's row (spec/opcode_table.json); of the wire frame, its pattern's
fixed bytes with wire offset 0 in the lowest lane (30_encoding R61, R71). -/
def row : Instr → Nat × Nat
  | .rst => (0x20000000000000000000000, 0x20000000000000000000000)
  | .enc _ _ _ _ => (0x10000000000000000000000, 0x30000000000000000000000)
  | .rxb _ => (0x08000000000000000000000, 0x28000000000000000000000)
  | .rxn => (0x00000000000000000000000, 0x28000000000000000000000)
  | .rxbSof => (0x0AA, 0xFFF)
  | .rxbSkip _ => (0x000, 0xF00)
  | .rxbCmdOk => (0x1C8, 0xFFF)
  | .rxbCmdBad _ => (0x100, 0xF00)
  | .rxbIdl _ => (0x200, 0xF00)
  | .rxbIdh _ => (0x300, 0xF00)
  | .rxbDataLo _ _ => (0x400, 0xC00)
  | .rxbDataHi _ _ => (0x800, 0xC00)
  | .rxbTailOk => (0xC55, 0xFFF)
  | .rxbTailBad _ => (0xC00, 0xF00)
  | .rxbUnreachableD _ => (0xD00, 0xF00)
  | .rxbUnreachableEF _ _ => (0xE00, 0xE00)
  | .rxnNotReady => (0x0, 0xF)
  | .rxnWait _ => (0x0, 0x0)
  | .wireFrame _ _ _ => (0x5500000000000000000000C8AA, 0xFF00000000000000000000FFFF)

/-- Whether bits agree with a row where the row fixes them. -/
def fits (r : Nat × Nat) : Code → Bool
  | .step w => w &&& BitVec.ofNat 90 r.2 == BitVec.ofNat 90 r.1
  | .rxSel key => key &&& BitVec.ofNat 12 r.2 == BitVec.ofNat 12 r.1
  | .rxnOfs o => o &&& BitVec.ofNat 4 r.2 == BitVec.ofNat 4 r.1
  | .wire f => f &&& BitVec.ofNat 104 r.2 == BitVec.ofNat 104 r.1

/-- The encoding of an instruction lies in its row. -/
def Statement (i : Instr) : Prop := fits (row i) (encode i) = true

/-- The bits of a step word that no row fixes do not matter to a row's mask. -/
theorem packStepWord_and (r e v r' e' v' : BitVec 1) (id : Id11) (len : Len) (data : Lanes) (b : Byte) :
    packStepWord r e v id len data b &&& packStepWord r' e' v' 0 0 0 0 =
      packStepWord (r &&& r') (e &&& e') (v &&& v') 0 0 0 0 := by
  show (r ++ e ++ v ++ id ++ len ++ data ++ b : BitVec (1 + 1 + 1 + 11 + 4 + 64 + 8)) &&&
    (r' ++ e' ++ v' ++ (0 : Id11) ++ (0 : Len) ++ (0 : Lanes) ++ (0 : Byte)) = _
  simp only [BitVec.and_append, packStepWord]
  simp

/-- The same for a wire frame. -/
theorem packWire_and (idl idh : Byte) (data : Lanes) :
    packWire idl idh data &&& (0xFF#8 ++ (0 : Lanes) ++ (0 : Byte) ++ (0 : Byte) ++ 0xFF#8 ++ 0xFF#8 : FrameBits) =
      packWire 0 0 0 := by
  show (Config.eof ++ data ++ idh ++ idl ++ Config.cmd ++ Config.sof : BitVec (8 + 64 + 8 + 8 + 8 + 8)) &&&
    (0xFF#8 ++ (0 : Lanes) ++ (0 : Byte) ++ (0 : Byte) ++ 0xFF#8 ++ 0xFF#8) = _
  simp only [BitVec.and_append, packWire]
  simp
  decide

/-- A key lies in a row whose mask tests `ofs` alone, if the masked `ofs` is what the row asks for. -/
theorem key_fits {o m : Ofs} {b : Byte} {value mask : Nat} (hm : BitVec.ofNat 12 mask = packKey m 0)
    (hv : packKey (o &&& m) 0 = BitVec.ofNat 12 value) :
    (packKey o b &&& BitVec.ofNat 12 mask == BitVec.ofNat 12 value) = true := by
  rw [hm, packKey_and_ofs, hv]
  exact beq_self_eq_true _

theorem rst : Statement .rst := by unfold Statement; decide

theorem enc (id : Id11) (len : Len) (data : Lanes) (rx : Option Byte) : Statement (.enc id len data rx) := by
  have h := packStepWord_and 0 1 (rxBits rx).1 1 1 0 id len data (rxBits rx).2
  have m : BitVec.ofNat 90 0x30000000000000000000000 = packStepWord 1 1 0 0 0 0 0 := by decide
  have v : BitVec.ofNat 90 0x10000000000000000000000 = packStepWord 0 1 0 0 0 0 0 := by decide
  simp only [Statement, fits, row, encode, m, v, h]
  simp

theorem rxb (b : Byte) : Statement (.rxb b) := by
  have h := packStepWord_and 0 0 1 1 0 1 0 0 0 b
  have m : BitVec.ofNat 90 0x28000000000000000000000 = packStepWord 1 0 1 0 0 0 0 := by decide
  have v : BitVec.ofNat 90 0x08000000000000000000000 = packStepWord 0 0 1 0 0 0 0 := by decide
  simp only [Statement, fits, row, encode, m, v, h]
  simp

theorem rxn : Statement .rxn := by unfold Statement; decide

theorem rxbSof : Statement .rxbSof := by unfold Statement; decide
theorem rxbSkip (b : Byte) : Statement (.rxbSkip b) :=
  key_fits (o := 0) (m := 0xF) (by simp only [row]; decide) (by simp only [row]; decide)
theorem rxbCmdOk : Statement .rxbCmdOk := by unfold Statement; decide
theorem rxbCmdBad (b : Byte) : Statement (.rxbCmdBad b) :=
  key_fits (o := 1) (m := 0xF) (by simp only [row]; decide) (by simp only [row]; decide)
theorem rxbIdl (b : Byte) : Statement (.rxbIdl b) :=
  key_fits (o := 2) (m := 0xF) (by simp only [row]; decide) (by simp only [row]; decide)
theorem rxbIdh (b : Byte) : Statement (.rxbIdh b) :=
  key_fits (o := 3) (m := 0xF) (by simp only [row]; decide) (by simp only [row]; decide)

theorem rxbDataLo (k : BitVec 2) (b : Byte) : Statement (.rxbDataLo k b) := by
  have h : ∀ k : BitVec 2, packKey ((1#2 ++ k) &&& 0xC) 0 = 0x400#12 := by decide
  exact key_fits (o := (1#2 ++ k)) (m := 0xC) (by simp only [row]; decide) (h k)

theorem rxbDataHi (k : BitVec 2) (b : Byte) : Statement (.rxbDataHi k b) := by
  have h : ∀ k : BitVec 2, packKey ((2#2 ++ k) &&& 0xC) 0 = 0x800#12 := by decide
  exact key_fits (o := (2#2 ++ k)) (m := 0xC) (by simp only [row]; decide) (h k)

theorem rxbTailOk : Statement .rxbTailOk := by unfold Statement; decide
theorem rxbTailBad (b : Byte) : Statement (.rxbTailBad b) :=
  key_fits (o := 12) (m := 0xF) (by simp only [row]; decide) (by simp only [row]; decide)
theorem rxbUnreachableD (b : Byte) : Statement (.rxbUnreachableD b) :=
  key_fits (o := 13) (m := 0xF) (by simp only [row]; decide) (by simp only [row]; decide)

theorem rxbUnreachableEF (x : BitVec 1) (b : Byte) : Statement (.rxbUnreachableEF x b) := by
  have h : ∀ x : BitVec 1, packKey ((7#3 ++ x) &&& 0xE) 0 = 0xE00#12 := by decide
  exact key_fits (o := (7#3 ++ x)) (m := 0xE) (by simp only [row]; decide) (h x)

theorem rxnNotReady : Statement .rxnNotReady := by unfold Statement; decide
theorem rxnWait (o : Ofs) : Statement (.rxnWait o) := by simp [Statement, fits, row, encode]

theorem wireFrame (idl idh : Byte) (data : Lanes) : Statement (.wireFrame idl idh data) := by
  have m : BitVec.ofNat 104 0xFF00000000000000000000FFFF =
    (0xFF#8 ++ (0 : Lanes) ++ (0 : Byte) ++ (0 : Byte) ++ 0xFF#8 ++ 0xFF#8 : FrameBits) := by decide
  have v : BitVec.ofNat 104 0x5500000000000000000000C8AA = packWire 0 0 0 := by decide
  simp only [Statement, fits, row, encode, m, v, packWire_and]
  exact beq_self_eq_true _

end Sys2Proof.Laws.InRow
end

