-- ==== Sys2Proof/Tests/Slice0.lean ====
section
/-!
SUPPORT. The model's own tests. Expected results come from the spec: the encoding tables of 30_encoding, the rules of
41_decoder and 42_control, and the vectors of 95_test_vectors (their numbers stand in the comments). After them, one witness
for every statement that has hypotheses.
-/

namespace Sys2Proof.Tests

open Sys2Proof Sys2Proof.Machine

/-- A decoder in mid-stream: registers with known contents, and the transactions given. -/
def st (o : Ofs) (ins : List Input) : State :=
  { dec := ⟨o, 0x34, 0xFF, #v[1, 2, 3, 4, 5, 6, 7, 8]⟩, inputs := ins, encOut := none, rxOut := .none, draws := 0 }

/-- Whether an outcome is a next state with a property. -/
def nextIs (o : Host.Outcome State Fault Refusal) (p : State → Bool) : Bool :=
  match o with
  | .next t => p t
  | .fault _ => false
  | .refused _ => false

/-! ### WellFormed refuses an ill-formed term for each of its checks -/

theorem test_wf_skip_sof : (Instr.rxbSkip 0xAA).wf = false := by decide
theorem test_wf_cmdBad_cmd : (Instr.rxbCmdBad 0xC8).wf = false := by decide
theorem test_wf_tailBad_eof : (Instr.rxbTailBad 0x55).wf = false := by decide
theorem test_wf_wait_in_hunt : (Instr.rxnWait 0).wf = false := by decide
theorem test_wf_wait_unreachable : (Instr.rxnWait 13).wf = false := by decide

/-! ### Decoding: a word written out from the spec's tables for every constructor -/

/-- V-CTL-02: `rst = 1, rx_valid = 1, rx_byte = 0xAA`. -/
theorem test_decode_rst : decodeTableWord 96 0x280000000000000000000AA = some .rst := by decide
/-- W1. -/
theorem test_decode_enc : decodeTableWord 96 0x135E50000004F4C4C454800 =
    some (.enc 0x35E 5 0x0000004F4C4C4548 none) := by decide
/-- V-CTL-04. -/
theorem test_decode_enc_rxb : decodeTableWord 96 0x18010000000000000000007 =
    some (.enc 0x001 0 0 (some 0x07)) := by decide
/-- V-RX-17, step 4. -/
theorem test_decode_rxb : decodeTableWord 96 0x0800000000000000000005E = some (.rxb 0x5E) := by decide
/-- P3, step 3. -/
theorem test_decode_rxn : decodeTableWord 96 0x00000000000000000000000 = some .rxn := by decide
/-- 30_encoding R75, rows 1 to 12. -/
theorem test_decode_sof : decodeTableWord 16 0b000010101010 = some .rxbSof := by decide
theorem test_decode_skip : decodeTableWord 16 0b000011001000 = some (.rxbSkip 0xC8) := by decide
theorem test_decode_cmdOk : decodeTableWord 16 0b000111001000 = some .rxbCmdOk := by decide
theorem test_decode_cmdBad : decodeTableWord 16 0b000110101010 = some (.rxbCmdBad 0xAA) := by decide
theorem test_decode_idl : decodeTableWord 16 0b001010101010 = some (.rxbIdl 0xAA) := by decide
theorem test_decode_idh : decodeTableWord 16 0b001111111111 = some (.rxbIdh 0xFF) := by decide
theorem test_decode_dataLo : decodeTableWord 16 0b011001010101 = some (.rxbDataLo 2 0x55) := by decide
theorem test_decode_dataHi : decodeTableWord 16 0b101110101010 = some (.rxbDataHi 3 0xAA) := by decide
theorem test_decode_tailOk : decodeTableWord 16 0b110001010101 = some .rxbTailOk := by decide
theorem test_decode_tailBad : decodeTableWord 16 0b110000000000 = some (.rxbTailBad 0x00) := by decide
theorem test_decode_unreachableD : decodeTableWord 16 0b110110101010 = some (.rxbUnreachableD 0xAA) := by decide
theorem test_decode_unreachableEF : decodeTableWord 16 0b111100000001 = some (.rxbUnreachableEF 1 0x01) := by decide
/-- 30_encoding R76. -/
theorem test_decode_notReady : decodeTableWord 8 0b0000 = some .rxnNotReady := by decide
theorem test_decode_wait : decodeTableWord 8 0b1100 = some (.rxnWait 12) := by decide
/-- 30_encoding R76 gives `ofs` 13 no row (log entry 5). -/
theorem test_decode_rxn_unreachable : decode (.rxnOfs 13) = .error .rxnOfsUnreachable := by decide
/-- The frame f1 of 95_test_vectors, wire offset 0 in the lowest lane (30_encoding R71). -/
theorem test_decode_wire : decodeTableWord 104 0x550000004F4C4C4548035EC8AA =
    some (.wireFrame 0x5E 0x03 0x0000004F4C4C4548) := by decide
/-- The same frame as 30_encoding R61 writes it, wire offset 0 first (log entry 10). -/
theorem test_decode_wire_as_written : decodeTableWord 104 0xAAC85E0348454C4C4F00000055 =
    some (.wireFrame 0x5E 0x03 0x0000004F4C4C4548) := by decide
/-- W6: a tail of `0x00` is no wire frame. -/
theorem test_decode_wire_bad_tail : decode (.wire 0x000000004F4C4C4548035EC8AA) = .error .wireNotEof := by decide
/-- V-ENC-02, the other way: the word of `ENC 0x7FF, [01..08]`. -/
theorem test_encode_enc : encode (.enc 0x7FF 8 0x0807060504030201 none) = .step 0x17FF8080706050403020100 := by decide

/-! ### One step of each operation -/

/-- V-CTL-01. -/
theorem test_rst_clears : nextIs (exec .rst (st 7 [])) (fun t => t.dec == DecState.reset && t.rxStatus == 0 && !t.encValid)
    = true := by decide
/-- V-CTL-02: the byte is not consumed by the decoder. -/
theorem test_rst_ignores_byte : nextIs (step (st 0 [.word 0x280000000000000000000AA])) (fun t => t.rxOfs == 0) = true := by
  decide
/-- V-ENC-06: lanes at or above `enc_len` are zeroed. -/
theorem test_enc_zeroes_lanes : nextIs (step (st 5 [.word 0x135E3080706050403020100]))
    (fun t => t.txBytes == [0xAA, 0xC8, 0x5E, 0x03, 1, 2, 3, 0, 0, 0, 0, 0, 0x55] && t.rxStatus == 5) = true := by decide
/-- V-CTL-04: `ENC` and `RXB` in one step. -/
theorem test_enc_with_rxb : nextIs (step (st 3 [.word 0x18010000000000000000007]))
    (fun t => t.txBytes == [0xAA, 0xC8, 1, 0, 0, 0, 0, 0, 0, 0, 0, 0, 0x55] && t.rxOfs == 4 && t.dec.idHi == 0x07) = true := by
  decide
/-- V-RX-07: the `0xAA` is consumed and starts nothing. -/
theorem test_rxb_second_sof : nextIs (exec (.rxb 0xAA) (st 1 [])) (fun t => t.rxStatus == 2 && t.rxOfs == 0) = true := by decide
/-- V-RX-19: an out-of-range identifier is accepted. -/
theorem test_rxb_tail : nextIs (exec (.rxb 0x55) (st 12 []))
    (fun t => t.rxId == 0xFF34 && t.rxData == 0x0807060504030201 && t.rxOfs == 0) = true := by decide
/-- V-RX-16. -/
theorem test_rxn_waits : nextIs (exec .rxn (st 12 [])) (fun t => t.rxStatus == 5 && t.rxOfs == 12) = true := by decide
/-- V-RX-15. -/
theorem test_rxn_hunt : nextIs (exec .rxn (st 0 [])) (fun t => t.rxStatus == 4 && t.rxOfs == 0) = true := by decide
/-- V-RX-01. -/
theorem test_sof : nextIs (exec .rxbSof (st 0 [])) (fun t => t.rxStatus == 0 && t.rxOfs == 1) = true := by decide
/-- V-RX-04. -/
theorem test_skip : nextIs (exec (.rxbSkip 0x55) (st 0 [])) (fun t => t.rxStatus == 0 && t.rxOfs == 0) = true := by decide
/-- V-RX-05. -/
theorem test_cmdOk : nextIs (exec .rxbCmdOk (st 1 [])) (fun t => t.rxStatus == 0 && t.rxOfs == 2) = true := by decide
/-- V-RX-06. -/
theorem test_cmdBad : nextIs (exec (.rxbCmdBad 0x00) (st 1 [])) (fun t => t.rxStatus == 2 && t.rxOfs == 0) = true := by decide
/-- V-RX-08. -/
theorem test_idl : nextIs (exec (.rxbIdl 0xAA) (st 2 [])) (fun t => t.dec.idLo == 0xAA && t.rxOfs == 3) = true := by decide
/-- V-RX-09. -/
theorem test_idh : nextIs (exec (.rxbIdh 0xFF) (st 3 [])) (fun t => t.dec.idHi == 0xFF && t.rxOfs == 4) = true := by decide
/-- V-RX-10. -/
theorem test_dataLo : nextIs (exec (.rxbDataLo 0 0x55) (st 4 []))
    (fun t => t.dec.buf == #v[0x55, 2, 3, 4, 5, 6, 7, 8] && t.rxOfs == 5) = true := by decide
/-- V-RX-11. -/
theorem test_dataHi : nextIs (exec (.rxbDataHi 3 0xAA) (st 11 []))
    (fun t => t.dec.buf == #v[1, 2, 3, 4, 5, 6, 7, 0xAA] && t.rxOfs == 12) = true := by decide
/-- V-RX-12. -/
theorem test_tailOk : nextIs (exec .rxbTailOk (st 12 [])) (fun t => t.rxStatus == 1 && t.rxId == 0xFF34) = true := by decide
/-- V-RX-14. -/
theorem test_tailBad : nextIs (exec (.rxbTailBad 0xAA) (st 12 [])) (fun t => t.rxStatus == 3 && t.rxOfs == 0) = true := by
  decide
/-- 30_encoding R77: `ofs <- 0` after the step, even for `0xAA`. -/
theorem test_unreachableD : nextIs (exec (.rxbUnreachableD 0xAA) (st 13 [])) (fun t => t.rxStatus == 0 && t.rxOfs == 0) = true := by
  decide
theorem test_unreachableEF : nextIs (exec (.rxbUnreachableEF 1 0x00) (st 15 [])) (fun t => t.rxStatus == 0 && t.rxOfs == 0)
    = true := by decide
/-- 41_decoder R130, R131. -/
theorem test_notReady : nextIs (exec .rxnNotReady (st 0 [])) (fun t => t.rxStatus == 4 && t.dec == (st 0 []).dec) = true := by
  decide
theorem test_wait : nextIs (exec (.rxnWait 7) (st 7 [])) (fun t => t.rxStatus == 5 && t.dec == (st 7 []).dec) = true := by decide
/-- 30_encoding R81: of a frame fed, the first byte now, and the others one step each. -/
theorem test_wireFrame : nextIs (step (st 0 [.frame 0x550000004F4C4C4548035EC8AA]))
    (fun t => t.rxOfs == 1 && t.inputs ==
      feed [0xC8, 0x5E, 0x03, 0x48, 0x45, 0x4C, 0x4C, 0x4F, 0, 0, 0, 0x55]) = true := by decide
/-- 40_encoder R100, its examples: five bytes are padded, ten are cut. -/
theorem test_normalize_hello : normalizePayload [0x48, 0x45, 0x4C, 0x4C, 0x4F] = [0x48, 0x45, 0x4C, 0x4C, 0x4F, 0, 0, 0] := by
  decide
theorem test_normalize_ten : normalizePayload [0, 1, 2, 3, 4, 5, 6, 7, 8, 9] = [0, 1, 2, 3, 4, 5, 6, 7] := by decide

/-! ### The step runs a row of the table put where it takes its instruction from -/

theorem test_step_runs_enc : step (State.reset.withFetchWord 96 0x135E50000004F4C4C454800) =
    exec (.enc 0x35E 5 0x0000004F4C4C4548 none) (State.reset.withFetchWord 96 0x135E50000004F4C4C454800) := by rfl
theorem test_step_runs_dataHi : step (State.reset.withFetchWord 16 0xBAA) =
    exec (.rxbDataHi 3 0xAA) (State.reset.withFetchWord 16 0xBAA) := by rfl
theorem test_step_runs_unreachable : step (State.reset.withFetchWord 16 0xFAA) =
    exec (.rxbUnreachableEF 1 0xAA) (State.reset.withFetchWord 16 0xFAA) := by rfl
theorem test_step_runs_wait : step (State.reset.withFetchWord 8 0x7) =
    exec (.rxnWait 7) (State.reset.withFetchWord 8 0x7) := by rfl
theorem test_step_runs_wire : step (State.reset.withFetchWord 104 0x550000004F4C4C4548035EC8AA) =
    exec (.wireFrame 0x5E 0x03 0x0000004F4C4C4548) (State.reset.withFetchWord 104 0x550000004F4C4C4548035EC8AA) := by rfl

/-! ### Witnesses: for each statement with hypotheses, values that meet them all -/

theorem witness_PowerOnRegisters : (⟨0, 1, 2, #v[3, 4, 5, 6, 7, 8, 9, 10]⟩ : DecState).ofs = 0 := rfl
theorem witness_Rst_in_hunt : ∃ s t : State, s.dec.ofs = 0 ∧ s.dec ≠ DecState.reset ∧ exec .rst s = .next t :=
  ⟨st 0 [], _, rfl, by decide, rfl⟩
theorem witness_EncGivesTheWireFrame : (0x135E50000004F4C4C454800#90).getLsbD 89 = false ∧
    (0x135E50000004F4C4C454800#90).getLsbD 88 = true := by decide
theorem witness_RstStepResetsTheDecoder : ∃ (s : State) (w : StepWord) (rest : List Input),
    s.inputs = .word w :: rest ∧ w.getLsbD 89 = true :=
  ⟨st 7 [.word 0x280000000000000000000AA], _, _, rfl, by decide⟩
theorem witness_DecodeEncodeAgree : (Instr.rxbTailBad 0x54).wf = true ∧ (Instr.rxnWait 12).wf = true := by decide
theorem witness_DecodedIsWellFormed : decode (.rxSel 0x1C9) = .ok (.rxbCmdBad 0xC9) := by decide
theorem witness_StepWordSelectsOperation : ∃ w : StepWord, w.extractLsb' 89 1 = 0 ∧ w.extractLsb' 88 1 = 1 ∧
    w.extractLsb' 87 1 = 1 ∧ w.extractLsb' 76 11 = 0x7FF ∧ w.extractLsb' 72 4 = 15 ∧
    w.extractLsb' 8 64 = 0x0807060504030201 ∧ w.extractLsb' 0 8 = 0xAA :=
  ⟨0x1FFFF0807060504030201AA, by decide⟩
theorem witness_RxnTableByOfs : 1 ≤ (1 : Ofs).toNat ∧ (12 : Ofs).toNat ≤ 12 := by decide
theorem witness_StepRuns_word : ∃ (s : State) (w : StepWord) (rest : List Input) (i : Instr),
    s.inputs = .word w :: rest ∧ decode (.step w) = .ok i := ⟨st 0 [.word 0], 0, [], _, rfl, rfl⟩
theorem witness_StepRuns_frame : ∃ (s : State) (f : FrameBits) (rest : List Input) (i : Instr),
    s.inputs = .frame f :: rest ∧ decode (.wire f) = .ok i :=
  ⟨st 0 [.frame 0x550000004F4C4C4548035EC8AA], _, _, .wireFrame 0x5E 0x03 0x0000004F4C4C4548, rfl, by decide⟩
theorem witness_StepRuns_bytes : ∃ (s : State) (f : FrameBits) (rest : List Input) (e : DecodeError),
    s.inputs = .frame f :: rest ∧ decode (.wire f) = .error e := ⟨st 0 [.frame 0], _, _, .wireNotSof, rfl, by decide⟩
theorem witness_StepRuns_idle : State.reset.inputs = [] := rfl
theorem witness_OutputsAreNeverReadBack : ∃ s s' t t' : State, s ≠ s' ∧ s.dec = s'.dec ∧ s.inputs = s'.inputs ∧
    Runs 1 s t ∧ Runs 1 s' t' :=
  ⟨st 4 [], { st 4 [] with rxOut := .errCmd, encOut := some 1, draws := 9 }, _, _, by decide, rfl, rfl, rfl, rfl⟩
theorem witness_EncLeavesTheRegisters : (st 12 []).dec.Legal := by unfold DecState.Legal; decide
theorem witness_EncValidExactlyWhenAsked : ∃ (s t : State) (w : StepWord) (rest : List Input),
    s.inputs = .word w :: rest ∧ step s = .next t := ⟨st 5 [.word 0x17FF100000000000000AA00], _, _, _, rfl, rfl⟩
theorem witness_NormalizeKeepsEightBytes : (7 : Nat) < 8 := by decide
theorem witness_PresentedPayloadIsNormalized : ∃ (p : List Byte) (data : Lanes), p ≠ [] ∧
    ∀ k < min p.length 8, p[k]? = some (lane data k) := ⟨[0x48, 0x45], 0xFFFFFFFFFFFF4548, by decide, by decide⟩
theorem witness_SofStartsAnAttempt : ∃ (s t u : State) (i j : Instr), s.dec.ofs = 0 ∧ (∃ b, b ≠ 0xAA ∧ i = .rxb b) ∧
    (∃ id len data rx, rx ≠ some 0xAA#8 ∧ j = .enc id len data rx) ∧ exec i s = .next t ∧ exec j s = .next u :=
  ⟨st 0 [], _, _, .rxb 0xAB, .enc 1 2 3 none, rfl, ⟨0xAB, by decide, rfl⟩, ⟨1, 2, 3, none, by decide, rfl⟩, rfl, rfl⟩
theorem witness_SkipDiscardsTheByte : (0xC8 : Byte) ≠ 0xAA ∧ (st 0 []).dec.ofs = 0 := by decide
theorem witness_ValidCommandAdvances : (st 1 []).dec.ofs = 1 := by decide
theorem witness_BadCommand_byte : (0xAA : Byte) ≠ 0xC8 ∧ (st 1 []).dec.ofs = 1 := by decide
theorem witness_BadCommand_run : ∃ (s : State) (rest : List Input), s.dec.ofs = 0 ∧
    s.inputs = feed [0xAA, 0xAA, 0xC8] ++ rest := ⟨st 0 (feed [0xAA, 0xAA, 0xC8]), [], by decide, by decide⟩
theorem witness_IdlStoresTheLowByte : (st 2 []).dec.ofs = 2 := by decide
theorem witness_IdhStoresTheHighByte : (st 3 []).dec.ofs = 3 := by decide
/-- Both ends of each row of the table. -/
theorem witness_DataStoresThePayloadByte : (st 4 []).dec.ofs.toNat = 4 + (0 : Fin 8).val ∧
    (st 7 []).dec.ofs.toNat = 4 + (3 : Fin 8).val ∧ (st 8 []).dec.ofs.toNat = 4 + (4 : Fin 8).val ∧
    (st 11 []).dec.ofs.toNat = 4 + (7 : Fin 8).val := by decide
theorem witness_DataRow_lo : Instr.rxbDataLo 3 0x37 = (if (3 : Fin 8).val < 4 then .rxbDataLo (BitVec.ofNat 2 (3 : Fin 8).val) 0x37
    else .rxbDataHi (BitVec.ofNat 2 (3 : Fin 8).val) 0x37) := by decide
theorem witness_DataRow_hi : Instr.rxbDataHi 0 0x37 = (if (4 : Fin 8).val < 4 then .rxbDataLo (BitVec.ofNat 2 (4 : Fin 8).val) 0x37
    else .rxbDataHi (BitVec.ofNat 2 (4 : Fin 8).val) 0x37) := by decide
theorem witness_ValidTailDeliversTheFrame : (st 12 []).dec.ofs = 12 := by decide
theorem witness_BadTail_byte : (0xAA : Byte) ≠ 0x55 ∧ (st 12 []).dec.ofs = 12 := by decide
theorem witness_BadTail_run : ∃ (s : State) (rest : List Input), s.dec.ofs = 12 ∧ s.inputs = feed [0xAA, 0xC8] ++ rest :=
  ⟨st 12 (feed [0xAA, 0xC8]), [], by decide, by decide⟩
theorem witness_UnreachableOfsRecovers : 13 ≤ (st 13 []).dec.ofs.toNat ∧ 13 ≤ (st 15 []).dec.ofs.toNat := by decide
theorem witness_NoByteInHuntIsNotReady : (st 0 []).dec.ofs = 0 := by decide
theorem witness_NoByteInFrameWaits : 1 ≤ (st 1 []).dec.ofs.toNat ∧ (st 12 []).dec.ofs.toNat ≤ 12 ∧
    ∃ (s : State) (rest : List Input), 1 ≤ s.dec.ofs.toNat ∧ s.dec.ofs.toNat ≤ 12 ∧ s.inputs = asmIdle (2 + 1) ++ rest :=
  ⟨by decide, by decide, st 7 (asmIdle 3), [], by decide, by decide, by decide⟩
theorem witness_DecoderRunsTheSelectedRow : (st 0 []).dec.Legal := by unfold DecState.Legal; decide
theorem witness_RxbWritesAtMostOneField : ∃ (s t u v : State), s.dec.Legal ∧ exec (.rxb 0x11) s = .next t ∧
    exec .rxn s = .next u ∧ exec (.enc 1 1 1 (some 0x11)) s = .next v ∧ s.dec.ofs ≠ 2 ∧ s.dec.ofs ≠ 3 ∧
    s.dec.ofs.toNat ≠ 4 + (1 : Fin 8).val :=
  ⟨st 4 [], _, _, _, by unfold DecState.Legal; decide, rfl, rfl, rfl, by decide, by decide, by decide⟩
theorem witness_OnlyRxbRaises_rxb : ∃ s t : State, exec (.rxb 0xAA) s = .next t ∧ t.rxStatus = 2 :=
  ⟨st 1 [], _, rfl, by decide⟩
theorem witness_OnlyRxbRaises_other : ∃ s t : State, exec (.enc 0 0 0 none) s = .next t := ⟨st 1 [], _, rfl⟩
theorem witness_ErrorEntryWritesOnlyOfs : ∃ s t : State, exec (.rxb 0xAA) s = .next t ∧ t.rxOut = .errTail :=
  ⟨st 12 [], _, rfl, by decide⟩
theorem witness_ResultPartition : ∃ s t : State, exec (.rxb 0x55) s = .next t ∧ t.rxStatus = 1 := ⟨st 12 [], _, rfl, by decide⟩
theorem witness_AttemptEndsWithASourceResult : ∃ (s t : State) (r : SourceResult), step s = .next t ∧ t.rxOut.source = some r :=
  ⟨st 12 (asmRxb 0x00), _, .invalidTail, rfl, by decide⟩
theorem witness_EveryStepKeepsTheInvariant : ∃ s t : State, s.Inv ∧ step s = .next t :=
  ⟨State.reset, _, ⟨by unfold DecState.Legal; decide, trivial, fun _ h => by cases h⟩, rfl⟩
theorem witness_RegistersHoldTheAcceptedBytes : ∃ (bs : List Byte) (s t : State) (id : Id16) (p : Vector Byte 8),
    s.dec.Accepted bs ∧ exec (.rxb 0x55) s = .next t ∧ t.rxOut = .frame id p := by
  refine ⟨[0xAA, 0xC8, 0x34, 0xFF, 1, 2, 3, 4, 5, 6, 7, 8], st 12 [], _, 0xFF34, #v[1, 2, 3, 4, 5, 6, 7, 8], ?_, rfl, by decide⟩
  refine ⟨by decide, by decide, ?_, ?_, ?_, ?_, ?_⟩
  · rintro b ⟨⟩; rfl
  · rintro b ⟨⟩; rfl
  · rintro b ⟨⟩; rfl
  · rintro b ⟨⟩; rfl
  · intro k b h; fin_cases k <;> (cases h; rfl)
theorem witness_StaleRegistersAreNeverObservable : ∃ s s' t t' : State, s.dec ≠ s'.dec ∧ s.dec.Alike s'.dec ∧
    s.inputs = s'.inputs ∧ Runs 1 s t ∧ Runs 1 s' t' := by
  refine ⟨st 4 [], { st 4 [] with dec := ⟨4, 0x34, 0xFF, #v[9, 9, 9, 9, 9, 9, 9, 9]⟩ }, _, _, by decide, ?_, rfl, rfl, rfl⟩
  exact ⟨rfl, fun _ => rfl, fun _ => rfl, fun k h => absurd (show 5 + k.val ≤ 4 from h) (by omega)⟩
theorem witness_BoundedReturnToHunt : ∃ (xs : List (Option Byte)) (s : State) (rest : List Input),
    1 ≤ s.dec.ofs.toNat ∧ s.dec.ofs.toNat ≤ 12 ∧ s.inputs = asmRx xs ++ rest ∧
    13 - s.dec.ofs.toNat ≤ (rxBytes xs).length :=
  ⟨[some 0, none, some 0], st 11 (asmRx [some 0, none, some 0]), [], by decide, by decide, by decide, by decide⟩
theorem witness_RoundTrip : ∃ (ident : Id11) (p : List Byte) (xs : List (Option Byte)) (s t : State) (rest : List Input) (b : Byte),
    s.dec.ofs = 0 ∧ rxBytes xs = (encodeFrame ident (normalizePayload p)).dropLast ∧
    s.inputs = asmRx (xs ++ [some 0x55]) ++ rest ∧ 0 < xs.length ∧ Runs 1 s t ∧ xs[0]? = some (some b) :=
  ⟨0x35E, [0x48], [some 0xAA, none, some 0xC8, some 0x5E, some 0x03, some 0x48, some 0, some 0, some 0, some 0, some 0, some 0, some 0],
    st 0 (asmRx [some 0xAA, none, some 0xC8, some 0x5E, some 0x03, some 0x48, some 0, some 0, some 0, some 0, some 0, some 0,
      some 0, some 0x55]), _, [], 0xAA,
    by decide, by decide, by decide, by decide, (run_succ (step_rxWord (x := some 0xAA) rfl)).trans rfl, by decide⟩
theorem witness_LoopDeliversTheFrame : ∃ (ident : Id11) (p : List Byte) (s : State) (rest : List Input),
    s.dec.ofs = 0 ∧ s.inputs = asmLoop ident p ++ rest := ⟨0x35E, [0x48], st 0 (asmLoop 0x35E [0x48]), [], by decide, by simp [st]⟩
theorem witness_ResynchronizesAfterJunk : ∃ (junk : List Byte) (f : FrameBits) (s t : State) (rest : List Input),
    s.dec.ofs = 0 ∧ (0xAA#8 ∉ junk) ∧ lane f 0 = 0xAA ∧ lane f 1 = 0xC8 ∧ lane f 12 = 0x55 ∧
    s.inputs = feed (junk ++ unpackBytes 13 f) ++ rest ∧ 0 < junk.length + 12 ∧ Runs 1 s t :=
  ⟨[0x00], 0x550000004F4C4C4548035EC8AA,
    st 0 (feed [0x00, 0xAA, 0xC8, 0x5E, 0x03, 0x48, 0x45, 0x4C, 0x4C, 0x4F, 0, 0, 0, 0x55]), _, [],
    by decide, by decide, by decide, by decide, by decide, by decide, by decide,
    (run_succ (step_rxWord (x := some 0x00) rfl)).trans rfl⟩
theorem witness_WireFrameIsFedByteByByte : ∃ (idl idh : Byte) (data : Lanes) (s : State) (rest : List Input),
    s.dec.ofs = 0 ∧ s.inputs = .frame (packWire idl idh data) :: rest := ⟨1, 2, 3, st 0 [.frame (packWire 1 2 3)], [], rfl, rfl⟩
theorem witness_RstAbandonsThePartialFrame : ∃ (b : Byte) (s : State) (rest : List Input),
    s.inputs = asmRst ++ asmRxb b ++ rest := ⟨0xAA, st 7 (asmRst ++ asmRxb 0xAA), [], rfl⟩

end Sys2Proof.Tests
end

/-!
PROOFS. The decoder's tables (30_encoding R61, R69, R75, R76): what each of the four formats decodes to, in terms of the
fields that its word is packed from.
-/

namespace Sys2Proof

/-! ### The step word -/

/-- A control bit is set exactly when its field is 1. -/
theorem getLsbD_zero_iff (x : BitVec 1) : x.getLsbD 0 = true ↔ x = 1 := by
  revert x; decide

/-- The decoder's input of a packed step word (30_encoding R72). -/
@[simp] theorem packStepWord_rx (r e v : BitVec 1) (id : Id11) (len : Len) (data : Lanes) (b : Byte) :
    StepWord.rx (packStepWord r e v id len data b) = if v = 1 then some b else none := by
  simp only [StepWord.rx, packStepWord_rxValid, packStepWord_rxByte, getLsbD_zero_iff]

/-- The operation of each control combination, read off the packed fields (30_encoding R69). -/
theorem decodeStepWord_packStepWord (r e v : BitVec 1) (id : Id11) (len : Len) (data : Lanes) (b : Byte) :
    decodeStepWord (packStepWord r e v id len data b) =
      if r = 1 then .rst
      else if e = 1 then .enc id len data (if v = 1 then some b else none)
      else if v = 1 then .rxb b
      else .rxn := by
  simp only [decodeStepWord, packStepWord_rst, packStepWord_encReq, packStepWord_rxValid, packStepWord_encId,
    packStepWord_encLen, packStepWord_encData, packStepWord_rxByte, packStepWord_rx, getLsbD_zero_iff]

/-- Settles O7: a step word is its fields, and the decoder reads each of them back. -/
theorem stepWordSelectsOperation : Obligations.StepWordSelectsOperation := by
  intro rst encReq rxValid id len data b w hrst henc hrx hid hlen hdata hb
  have hw : w = packStepWord rst encReq rxValid id len data b := by
    rw [← hrst, ← henc, ← hrx, ← hid, ← hlen, ← hdata, ← hb]
    exact packStepWord_fields w
  refine ⟨hw, ?_⟩
  rw [hw, decode, decodeStepWord_packStepWord]

/-! ### The wire frame -/

/-- A wire frame decodes exactly when its three fixed bytes are right, and then to its other ten bytes
(30_encoding R61). -/
theorem decodeWire_eq_ok_iff (f : FrameBits) (i : Instr) :
    decodeWire f = .ok i ↔
      (lane f 0 = Config.sof ∧ lane f 1 = Config.cmd ∧ lane f 12 = Config.eof) ∧
        i = .wireFrame (lane f 2) (lane f 3) (f.extractLsb' 32 64) := by
  unfold decodeWire
  split_ifs with hsof hcmd heof
  · simp [hsof]
  · simp [hcmd]
  · simp [heof]
  · simp [not_not.mp hsof, not_not.mp hcmd, not_not.mp heof, eq_comm]

/-- The decoder reads the ten field bytes of a wire frame back. -/
theorem decodeWire_packWire (idl idh : Byte) (data : Lanes) :
    decodeWire (packWire idl idh data) = .ok (.wireFrame idl idh data) := by
  simp [decodeWire_eq_ok_iff]

/-- A wire frame's fields determine it: only the pattern around them decodes to them. -/
theorem decodeWire_eq_wireFrame_iff (f : FrameBits) (idl idh : Byte) (data : Lanes) :
    decodeWire f = .ok (.wireFrame idl idh data) ↔ f = packWire idl idh data := by
  constructor
  · intro h
    obtain ⟨⟨hsof, hcmd, heof⟩, hfields⟩ := (decodeWire_eq_ok_iff f _).mp h
    obtain ⟨rfl, rfl, rfl⟩ := Instr.wireFrame.inj hfields
    exact packWire_fields f hsof hcmd heof
  · rintro rfl
    exact decodeWire_packWire idl idh data

/-- Settles O10: the fixed bytes decide whether thirteen bytes decode, and the pattern is a bijection onto the fields. -/
theorem wireFramePattern : Obligations.WireFramePattern := by
  intro f
  refine ⟨?_, decodeWire_eq_wireFrame_iff f⟩
  simp only [decode, decodeWire_eq_ok_iff, exists_and_left, exists_eq, and_true]
  exact Iff.rfl

/-! ### The rows of RXB -/

/-- The mask of a row applies to `ofs` and to the byte apart. -/
theorem packKey_and_packKey (o m : Ofs) (b c : Byte) :
    packKey o b &&& packKey m c = packKey (o &&& m) (b &&& c) :=
  BitVec.and_append

/-- A key is its two fields (30_encoding R75). -/
theorem packKey_fields (key : RxKey) : key = packKey (key.extractLsb' 8 4) (RxKey.byte key) := by
  apply BitVec.eq_of_getLsbD_eq
  intro i hi
  simp only [packKey, RxKey.byte, BitVec.getLsbD_append, BitVec.getLsbD_extractLsb']
  split_ifs <;> (rw [decide_eq_true (by omega), Bool.true_and]; congr 1; omega)

/-- Two keys are the same when their fields are. -/
theorem packKey_inj (o o' : Ofs) (b b' : Byte) : packKey o b = packKey o' b' ↔ o = o' ∧ b = b' := by
  refine ⟨fun h => ⟨?_, ?_⟩, fun ⟨ho, hb⟩ => by rw [ho, hb]⟩
  · simpa using congrArg (BitVec.extractLsb' 8 4) h
  · simpa using congrArg RxKey.byte h

/-- A row matches when `ofs` and the byte agree with it where it fixes them. -/
theorem RxRow.hits_packKey (r : RxRow) (o : Ofs) (b : Byte) :
    r.hits (packKey o b) = true ↔
      o &&& r.mask.extractLsb' 8 4 = r.value.extractLsb' 8 4 ∧ b &&& r.mask.extractLsb' 0 8 = r.value.extractLsb' 0 8 := by
  have h : packKey o b &&& r.mask = packKey (o &&& r.mask.extractLsb' 8 4) (b &&& r.mask.extractLsb' 0 8) := by
    rw [← packKey_and_packKey]
    exact congrArg _ (packKey_fields r.mask)
  rw [RxRow.hits, beq_iff_eq, h, ← packKey_inj]
  exact ⟨fun e => e.trans (packKey_fields r.value), fun e => e.trans (packKey_fields r.value).symm⟩

/-- The decoder of keys over any list of rows. -/
def decodeRxRows (rows : List RxRow) (key : RxKey) : Except DecodeError Instr :=
  match rows.find? (fun r => r.hits key) with
  | some r => .ok (r.build key)
  | none => .error .noRxbRow

/-- The decoder of RXB keys is the one over the rows of the table. -/
theorem decodeRxSel_eq_decodeRxRows (key : RxKey) : decodeRxSel key = decodeRxRows rxRows key := rfl

/-- "The rows are tried in order and the first match wins" (30_encoding R75). -/
theorem decodeRxRows_cons (r : RxRow) (rows : List RxRow) (key : RxKey) :
    decodeRxRows (r :: rows) key = if r.hits key = true then .ok (r.build key) else decodeRxRows rows key := by
  by_cases h : r.hits key = true <;> simp [decodeRxRows, h]

/-- A key that no row matches is refused by name. -/
theorem decodeRxRows_nil (key : RxKey) : decodeRxRows [] key = .error .noRxbRow := rfl

/-- A mask of the whole `ofs` tests for one value. -/
theorem ofs_and_ones (o : Ofs) : o &&& 15#4 = o :=
  BitVec.and_allOnes

/-- A mask of the whole byte tests for one value. -/
theorem byte_and_ones (b : Byte) : b &&& 255#8 = b :=
  BitVec.and_allOnes

/-- The row `01` above two open bits is `ofs` 4 to 7. -/
theorem ofs_and_dataMask_lo (o : Ofs) : o &&& 12#4 = 4#4 ↔ 4 ≤ o.toNat ∧ o.toNat < 8 := by
  revert o; decide

/-- The row `10` above two open bits is `ofs` 8 to 11. -/
theorem ofs_and_dataMask_hi (o : Ofs) : o &&& 12#4 = 8#4 ↔ 8 ≤ o.toNat ∧ o.toNat < 12 := by
  revert o; decide

/-- The row `111` above one open bit is `ofs` 14 and 15. -/
theorem ofs_and_topMask (o : Ofs) : o &&& 14#4 = 14#4 ↔ 14 ≤ o.toNat := by
  revert o; decide

/-- The low bits of `ofs` in a key. -/
theorem packKey_ofsLow (o : Ofs) (b : Byte) (len : Nat) :
    (packKey o b).extractLsb' 8 len = o.extractLsb' 0 len :=
  packKey_field o b 0 len

/-- The twelve rows of R75, each with the test of `ofs` and of the byte that its mask and value stand for. -/
theorem decodeRxSel_packKey (o : Ofs) (b : Byte) : decodeRxSel (packKey o b) =
    if o = 0 ∧ b = 0xAA then .ok .rxbSof
    else if o = 0 then .ok (.rxbSkip b)
    else if o = 1 ∧ b = 0xC8 then .ok .rxbCmdOk
    else if o = 1 then .ok (.rxbCmdBad b)
    else if o = 2 then .ok (.rxbIdl b)
    else if o = 3 then .ok (.rxbIdh b)
    else if 4 ≤ o.toNat ∧ o.toNat < 8 then .ok (.rxbDataLo (o.extractLsb' 0 2) b)
    else if 8 ≤ o.toNat ∧ o.toNat < 12 then .ok (.rxbDataHi (o.extractLsb' 0 2) b)
    else if o = 12 ∧ b = 0x55 then .ok .rxbTailOk
    else if o = 12 then .ok (.rxbTailBad b)
    else if o = 13 then .ok (.rxbUnreachableD b)
    else if 14 ≤ o.toNat then .ok (.rxbUnreachableEF (o.extractLsb' 0 1) b)
    else .error .noRxbRow := by
  simp [decodeRxSel_eq_decodeRxRows, rxRows, decodeRxRows_cons, decodeRxRows_nil, RxRow.hits_packKey, ofs_and_ones,
    byte_and_ones, ofs_and_dataMask_lo, ofs_and_dataMask_hi, ofs_and_topMask, packKey_ofsLow]

/-- Settles O8: the branches of the statement, in order, each against the first of the twelve rows that it meets. -/
theorem rxbTableFirstMatch : Obligations.RxbTableFirstMatch := by
  intro o b
  refine (decodeRxSel_packKey o b).trans ?_
  by_cases h0 : o = 0#4
  · by_cases hb : b = 0xAA#8 <;> simp [h0, hb]
  by_cases h1 : o = 1#4
  · by_cases hb : b = 0xC8#8 <;> simp [h1, hb]
  by_cases h2 : o = 2#4
  · simp [h2]
  by_cases h3 : o = 3#4
  · simp [h3]
  have hge4 : 4 ≤ o.toNat := by bv_omega
  by_cases h8 : o.toNat < 8
  · simp [h0, h1, h2, h3, hge4, h8]
  have hge8 : 8 ≤ o.toNat := by omega
  by_cases h12 : o.toNat < 12
  · simp [h0, h1, h2, h3, h8, hge8, h12]
  by_cases htail : o = 12#4
  · by_cases hb : b = 0x55#8 <;> simp [htail, hb]
  by_cases h13 : o = 13#4
  · simp [h13]
  have hge14 : 14 ≤ o.toNat := by bv_omega
  simp [h0, h1, h2, h3, h8, h12, htail, h13, hge14]

/-! ### The rows of RXN -/

/-- Settles O9: R76's two rows by cases on `ofs`. -/
theorem rxnTableByOfs : Obligations.RxnTableByOfs := by
  refine ⟨rfl, fun o hlo hhi => ?_⟩
  have hne : o ≠ 0 := by rintro rfl; exact absurd hlo (by decide)
  rw [decode, decodeRxnOfs, if_neg hne, if_pos hhi]

end Sys2Proof

/-!
PROOFS. The encoder (40_encoder R100 to R105): the operands the host presents, the thirteen wire bytes lane by lane, and
what an `ENC` step answers.
-/

namespace Sys2Proof.Machine

/-! ### The identifier -/

/-- `IDL` is the identifier's remainder by `2^8`. -/
theorem splitLo_toNat (id : Id11) : (splitLo id).toNat = id.toNat % 2 ^ 8 := by
  simp [splitLo]

/-- `IDH` is the identifier's quotient by `2^8`: an 11-bit identifier has three bits above its low byte, so none is cut. -/
theorem splitHi_toNat (id : Id11) : (splitHi id).toNat = id.toNat / 2 ^ 8 := by
  simp only [splitHi, BitVec.toNat_setWidth, BitVec.extractLsb'_toNat, Nat.shiftRight_eq_div_pow]
  have hid : id.toNat < 2 ^ 11 := id.isLt
  omega

/-- Settles O23: the rule's masks with `0xFF` are remainders by `2^8`, and the high byte is far below `2^8`. -/
theorem splitIdentifierLittleEndian : Obligations.SplitIdentifierLittleEndian := by
  intro id
  have hid : id.toNat < 2 ^ 11 := id.isLt
  have hmask (n : Nat) : n &&& 0xFF = n % 2 ^ 8 := Nat.and_two_pow_sub_one_eq_mod n 8
  refine ⟨rfl, rfl, ?_, ?_, by decide, by decide⟩
  · rw [splitLo_toNat, hmask]
  · rw [splitHi_toNat, hmask, Nat.shiftRight_eq_div_pow]
    omega

/-- Settles O24: the port is 11 bits wide, so a number on it is reduced modulo `2^11`. -/
theorem hostIdentifierWraps : Obligations.HostIdentifierWraps :=
  fun n => BitVec.toNat_ofNat n 11

/-! ### The payload -/

/-- The zeros that follow the kept bytes are just those missing from eight (40_encoder R100). -/
theorem normalizePayload_length (p : List Byte) : (normalizePayload p).length = 8 := by
  simp only [normalizePayload, List.length_append, List.length_replicate, List.length_take]
  omega

/-- A normalized payload keeps each of the payload's first eight bytes in its place. -/
theorem normalizePayload_getElem?_of_lt {p : List Byte} {k : Nat} (hk : k < 8) (h : k < p.length) :
    (normalizePayload p)[k]? = some p[k] := by
  have hkept : k < (p.take 8).length := by rw [List.length_take]; omega
  rw [normalizePayload, List.getElem?_append_left hkept, List.getElem?_take_of_lt hk, List.getElem?_eq_getElem h]

/-- A normalized payload is 0 at the places below eight that the payload has no byte for. -/
theorem normalizePayload_getElem?_of_ge {p : List Byte} {k : Nat} (hk : k < 8) (h : p.length ≤ k) :
    (normalizePayload p)[k]? = some 0 := by
  have hkept : p.take 8 = p := List.take_of_length_le (by omega)
  rw [normalizePayload, hkept, List.getElem?_append_right h]
  exact List.getElem?_replicate_of_lt (by omega)

/-- Settles O21: a byte of the normalization comes from the payload or from the zeros after it, by its index. -/
theorem normalizeKeepsEightBytes : Obligations.NormalizeKeepsEightBytes := by
  refine fun p => ⟨normalizePayload_length p, fun k hk => ?_⟩
  split
  next h => exact normalizePayload_getElem?_of_lt hk h
  next h => exact normalizePayload_getElem?_of_ge hk (Nat.le_of_not_lt h)

@[simp] theorem encPayload_length (len : Len) (data : Lanes) : (encPayload len data).length = 8 := by
  simp [encPayload]

@[simp] theorem encPayload_getElem? (len : Len) (data : Lanes) {k : Nat} (hk : k < 8) :
    (encPayload len data)[k]? = some (encByte len data k) := by
  simp [encPayload, hk]

/-! ### The thirteen wire bytes -/

section WireBytes
variable (id : Id11) (len : Len) (data : Lanes)

/-- Each lane of `enc_frame` is the wire byte at its offset (40_encoder R103, R104). -/
theorem lane_encOutput {j : Nat} (hj : j < 13) :
    lane (encOutput id len data) j = (encodeFrame id (encPayload len data)).getD j 0 :=
  lane_packBytes 104 _ j (by omega)

@[simp] theorem lane_encOutput_sof : lane (encOutput id len data) 0 = Config.sof :=
  lane_encOutput id len data (by decide)

@[simp] theorem lane_encOutput_cmd : lane (encOutput id len data) 1 = Config.cmd :=
  lane_encOutput id len data (by decide)

@[simp] theorem lane_encOutput_idl : lane (encOutput id len data) 2 = splitLo id :=
  lane_encOutput id len data (by decide)

@[simp] theorem lane_encOutput_idh : lane (encOutput id len data) 3 = splitHi id :=
  lane_encOutput id len data (by decide)

/-- Wire offsets 4 to 11 are the eight normalized payload bytes. -/
@[simp] theorem lane_encOutput_payload {k : Nat} (hk : k < 8) :
    lane (encOutput id len data) (4 + k) = encByte len data k := by
  have hdrop : (encodeFrame id (encPayload len data))[4 + k]? = (encPayload len data ++ [Config.eof])[k]? := by
    rw [encodeFrame, List.append_assoc, List.getElem?_append_right (Nat.le_add_right 4 k)]
    exact congrArg _ (Nat.add_sub_cancel_left 4 k)
  rw [lane_encOutput id len data (by omega), List.getD_eq_getElem?_getD, hdrop,
    List.getElem?_append_left (by simpa using hk), encPayload_getElem? len data hk, Option.getD_some]

/-- The end sentinel follows the eight payload bytes. -/
@[simp] theorem lane_encOutput_eof : lane (encOutput id len data) 12 = Config.eof :=
  lane_encOutput id len data (by decide)

end WireBytes

/-! ### The step -/

/-- What an `ENC` answers: its frame on the port, beside the decoder's own step (40_encoder R104, 42_control R162). -/
theorem exec_enc (id : Id11) (len : Len) (data : Lanes) (rx : Option Byte) (s : State) :
    exec (.enc id len data rx) s = .next (s.commit (some (encOutput id len data)) (decStep rx s.dec)) := rfl

@[simp] theorem commit_some_encValid (f : FrameBits) (r : DecResult) (s : State) :
    (s.commit (some f) r).encValid = true := rfl

@[simp] theorem commit_some_encFrame (f : FrameBits) (r : DecResult) (s : State) :
    (s.commit (some f) r).encFrame = f := rfl

/-- A step word with `rst = 0` and `enc_req = 1` is an `ENC` of its fields (30_encoding R69). -/
theorem decodeStepWord_of_encReq {w : StepWord} (hrst : w.rst = false) (hreq : w.encReq = true) :
    decodeStepWord w = .enc w.encId w.encLen w.encData w.rx := by
  simp [decodeStepWord, hrst, hreq]

/-- Settles O16: the step word by its control bits, and the thirteen lanes from those of `encOutput`. -/
theorem encGivesTheWireFrame : Obligations.EncGivesTheWireFrame := by
  refine ⟨fun w hrst hreq => ⟨w.rx, congrArg Except.ok (decodeStepWord_of_encReq hrst hreq)⟩,
    fun id len data rx s => ⟨_, exec_enc id len data rx s, ?_⟩⟩
  simp only [commit_some_encValid, commit_some_encFrame, commit_dec, commit_rxOut, commit_inputs,
    commit_draws, true_and, and_true]
  exact ⟨lane_encOutput_sof id len data, lane_encOutput_cmd id len data,
    lane_encOutput_idl id len data, lane_encOutput_idh id len data,
    fun k hk => lane_encOutput_payload id len data hk, lane_encOutput_eof id len data⟩

end Sys2Proof.Machine

/-!
PROOFS. The decoder's rows (41_decoder R121 to R131): when `RXB` and `RXN` perform each row, what a row answers, and runs of
decoder steps.
-/

namespace Sys2Proof.Machine

/-! ### The row that the decoder's registers and the byte select (30_encoding R75, R76) -/

section Selection
variable {d : DecState}

theorem decByte_hunt (b : Byte) (h : d.ofs = 0) : decByte b d = hunt b d := by
  simp [decByte, h]

theorem decByte_sof (h : d.ofs = 0) : decByte Config.sof d = rxbSof d := by
  simp [decByte_hunt _ h, hunt]

theorem decByte_skip {b : Byte} (hb : b ≠ Config.sof) (h : d.ofs = 0) : decByte b d = rxbSkip d := by
  rw [decByte_hunt b h, hunt, if_neg hb]

theorem decByte_cmdOk (h : d.ofs = 1) : decByte Config.cmd d = rxbCmdOk d := by
  simp [decByte, h]

theorem decByte_cmdBad {b : Byte} (hb : b ≠ Config.cmd) (h : d.ofs = 1) : decByte b d = rxbCmdBad d := by
  simp [decByte, h, hb]

theorem decByte_idl (b : Byte) (h : d.ofs = 2) : decByte b d = rxbIdl b d := by
  simp [decByte, h]

theorem decByte_idh (b : Byte) (h : d.ofs = 3) : decByte b d = rxbIdh b d := by
  simp [decByte, h]

theorem decByte_data (b : Byte) {k : Fin 8} (h : d.ofs.toNat = 4 + k.val) : decByte b d = rxbData k b d := by
  have hne (n : Ofs) (hn : n.toNat < 4) : d.ofs ≠ n := by rintro rfl; omega
  have hk : (⟨d.ofs.toNat - 4, by omega⟩ : Fin 8) = k := Fin.ext (by simp [h])
  rw [decByte, if_neg (hne 0 (by decide)), if_neg (hne 1 (by decide)), if_neg (hne 2 (by decide)),
    if_neg (hne 3 (by decide)), dif_pos (by omega), hk]

theorem decByte_tailOk (h : d.ofs = 12) : decByte Config.eof d = rxbTailOk d := by
  simp [decByte, h]

theorem decByte_tailBad {b : Byte} (hb : b ≠ Config.eof) (h : d.ofs = 12) : decByte b d = rxbTailBad d := by
  simp [decByte, h, hb]

theorem decNone_notReady (h : d.ofs = 0) : decNone d = rxnNotReady d := by
  rw [decNone, if_pos h]

theorem decNone_wait (hlo : 1 ≤ d.ofs.toNat) (hhi : d.ofs.toNat ≤ 12) : decNone d = rxnWait d := by
  have hne : d.ofs ≠ 0 := by intro h; simp [h] at hlo
  rw [decNone, if_neg hne, if_pos hhi]

/-- In the sync scan every decoder operation but `RXB 0xAA` leaves all registers (41_decoder R122, R130). -/
theorem decStep_next_of_hunt {rx : Option Byte} (h : d.ofs = 0) (hrx : rx ≠ some Config.sof) :
    (decStep rx d).next = d := by
  cases rx with
  | none => exact congrArg DecResult.next (decNone_notReady h)
  | some b => exact congrArg DecResult.next (decByte_skip (fun hb => hrx (congrArg some hb)) h)

end Selection

/-! ### What the operations answer -/

section Answers
variable (s : State)

theorem exec_rst : exec .rst s = .next (s.commit none (emit .none DecState.reset)) := rfl
theorem exec_rxb (b : Byte) : exec (.rxb b) s = .next (s.commit none (decByte b s.dec)) := rfl
theorem exec_rxn : exec .rxn s = .next (s.commit none (decNone s.dec)) := rfl
theorem exec_rxbSof : exec .rxbSof s = .next (s.commit none (rxbSof s.dec)) := rfl
theorem exec_rxbSkip (b : Byte) : exec (.rxbSkip b) s = .next (s.commit none (rxbSkip s.dec)) := rfl
theorem exec_rxbCmdOk : exec .rxbCmdOk s = .next (s.commit none (rxbCmdOk s.dec)) := rfl
theorem exec_rxbCmdBad (b : Byte) : exec (.rxbCmdBad b) s = .next (s.commit none (rxbCmdBad s.dec)) := rfl
theorem exec_rxbIdl (b : Byte) : exec (.rxbIdl b) s = .next (s.commit none (rxbIdl b s.dec)) := rfl
theorem exec_rxbIdh (b : Byte) : exec (.rxbIdh b) s = .next (s.commit none (rxbIdh b s.dec)) := rfl
theorem exec_rxbDataLo (k : BitVec 2) (b : Byte) :
    exec (.rxbDataLo k b) s = .next (s.commit none (rxbData ⟨k.toNat, by omega⟩ b s.dec)) := rfl
theorem exec_rxbDataHi (k : BitVec 2) (b : Byte) :
    exec (.rxbDataHi k b) s = .next (s.commit none (rxbData ⟨4 + k.toNat, by omega⟩ b s.dec)) := rfl
theorem exec_rxbTailOk : exec .rxbTailOk s = .next (s.commit none (rxbTailOk s.dec)) := rfl
theorem exec_rxbTailBad (b : Byte) : exec (.rxbTailBad b) s = .next (s.commit none (rxbTailBad s.dec)) := rfl
theorem exec_rxnNotReady : exec .rxnNotReady s = .next (s.commit none (rxnNotReady s.dec)) := rfl
theorem exec_rxnWait (o : Ofs) : exec (.rxnWait o) s = .next (s.commit none (rxnWait s.dec)) := rfl

variable {s}

/-- `RXB` answers what the selected row answers (41_decoder R120). -/
theorem exec_rxb_of_row {b : Byte} {r : DecResult} (h : decByte b s.dec = r) :
    exec (.rxb b) s = .next (s.commit none r) := by
  rw [exec_rxb, h]

/-- `RXN` answers what the selected row answers (41_decoder R120). -/
theorem exec_rxn_of_row {r : DecResult} (h : decNone s.dec = r) : exec .rxn s = .next (s.commit none r) := by
  rw [exec_rxn, h]

end Answers

/-! ### Runs of decoder steps -/

theorem runs_zero (s : State) : Runs 0 s s := run_zero s

/-- A run whose first step presents a byte goes on from what the selected row answers. -/
theorem runs_succ_of_byte {k : Nat} {s t : State} {b : Byte} {rest : List Input} {r : DecResult}
    (hin : s.inputs = .word (rxWord (some b)) :: rest) (hrow : decByte b s.dec = r)
    (hrun : Runs k (s.commit none r) t) : Runs (k + 1) s t := by
  subst hrow
  exact (run_succ (step_rxWord hin)).trans hrun

/-- A run whose first step presents no byte goes on from what the selected row answers. -/
theorem runs_succ_of_noByte {k : Nat} {s t : State} {rest : List Input} {r : DecResult}
    (hin : s.inputs = .word (rxWord none) :: rest) (hrow : decNone s.dec = r)
    (hrun : Runs k (s.commit none r) t) : Runs (k + 1) s t := by
  subst hrow
  exact (run_succ (step_rxWord hin)).trans hrun

/-! ### The sync scan and the command byte -/

/-- Settles O25: from the sync scan only `RXB 0xAA` writes a register, whatever `ENC` does beside it. -/
theorem sofStartsAnAttempt : Obligations.SofStartsAnAttempt := by
  refine ⟨(decodeRxSel_packKey 0 0xAA).trans (by simp),
    fun s => ⟨_, exec_rxbSof s, fun h => exec_rxb_of_row (decByte_sof h), rfl⟩, ?_⟩
  rintro s t i h (rfl | rfl | ⟨b, hb, rfl⟩ | ⟨id, len, data, rx, hrx, rfl⟩) hexec
  case inl =>
    cases (exec_rst s).symm.trans hexec
    rfl
  case inr.inl =>
    cases (exec_rxn_of_row (decNone_notReady h)).symm.trans hexec
    exact h
  case inr.inr.inl =>
    cases (exec_rxb_of_row (decByte_skip hb h)).symm.trans hexec
    exact h
  case inr.inr.inr =>
    cases (exec_enc id len data rx s).symm.trans hexec
    rw [commit_dec, decStep_next_of_hunt h hrx, h]

/-- Settles O26, from the row of `ofs = 0` that the row of `0xAA` leaves. -/
theorem skipDiscardsTheByte : Obligations.SkipDiscardsTheByte := fun b hb =>
  ⟨(decodeRxSel_packKey 0 b).trans (by simpa using hb),
    fun s => ⟨_, exec_rxbSkip s b, fun h => exec_rxb_of_row (decByte_skip hb h), rfl⟩⟩

/-- Settles O27, from the row of `ofs = 1` and the command byte. -/
theorem validCommandAdvances : Obligations.ValidCommandAdvances :=
  ⟨(decodeRxSel_packKey 1 0xC8).trans (by simp),
    fun s => ⟨_, exec_rxbCmdOk s, fun h => exec_rxb_of_row (decByte_cmdOk h), rfl⟩⟩

/-- Settles O28: the row raises, and in `AA AA C8` it takes the second `AA`, so that the `C8` meets the sync scan. -/
theorem badCommandRaisesInvalidCommand : Obligations.BadCommandRaisesInvalidCommand := by
  refine ⟨fun b hb => ⟨(decodeRxSel_packKey 1 b).trans (by simpa using hb),
    fun s => ⟨_, exec_rxbCmdBad s b, fun h => exec_rxb_of_row (decByte_cmdBad hb h), rfl⟩⟩, ?_⟩
  intro s rest h hin
  have hin1 : (s.commit none (rxbSof s.dec)).inputs = feed [0xAA, 0xC8] ++ rest := by
    rw [commit_inputs, hin]; rfl
  have hin2 : ((s.commit none (rxbSof s.dec)).commit none (rxbCmdBad (s.dec.setOfs 1))).inputs = feed [0xC8] ++ rest := by
    rw [commit_inputs, hin1]; rfl
  have hrow1 : decByte 0xAA (s.dec.setOfs 1) = rxbCmdBad (s.dec.setOfs 1) := decByte_cmdBad (by decide) rfl
  have hrow2 : decByte 0xC8 (s.dec.setOfs 0) = rxbSkip (s.dec.setOfs 0) := decByte_skip (by decide) rfl
  have hback : s.dec.setOfs 0 = s.dec := by rw [← h]; rfl
  refine ⟨_, _, runs_succ_of_byte hin (decByte_sof h) (runs_succ_of_byte hin1 hrow1 (runs_zero _)), rfl,
    runs_succ_of_byte hin (decByte_sof h) (runs_succ_of_byte hin1 hrow1 (runs_succ_of_byte hin2 hrow2 (runs_zero _))),
    rfl, hback, ?_⟩
  rw [commit_inputs, hin2]
  rfl

/-! ### The identifier -/

/-- Settles O29, from the row of `ofs = 2`. -/
theorem idlStoresTheLowByte : Obligations.IdlStoresTheLowByte := fun b =>
  ⟨(decodeRxSel_packKey 2 b).trans (by simp),
    fun s => ⟨_, exec_rxbIdl s b, fun h => exec_rxb_of_row (decByte_idl b h), rfl⟩⟩

/-- Settles O30, from the row of `ofs = 3`. -/
theorem idhStoresTheHighByte : Obligations.IdhStoresTheHighByte := fun b =>
  ⟨(decodeRxSel_packKey 3 b).trans (by simp),
    fun s => ⟨_, exec_rxbIdh s b, fun h => exec_rxb_of_row (decByte_idh b h), rfl⟩⟩

/-! ### The payload -/

/-- The row of the table that stores payload byte `k`: of `ofs` 4..7 or of `ofs` 8..11 (41_decoder R127). -/
def dataRow (k : Fin 8) (b : Byte) : Instr :=
  if k.val < 4 then .rxbDataLo (BitVec.ofNat 2 k.val) b else .rxbDataHi (BitVec.ofNat 2 k.val) b

theorem dataRow_lo {k : Fin 8} (h : k.val < 4) (b : Byte) : dataRow k b = .rxbDataLo (BitVec.ofNat 2 k.val) b :=
  if_pos h

theorem dataRow_hi {k : Fin 8} (h : 4 ≤ k.val) (b : Byte) : dataRow k b = .rxbDataHi (BitVec.ofNat 2 k.val) b :=
  if_neg (by omega)

/-- The low two bits of `ofs = 4 + k` are those of `k`. -/
theorem ofNat_four_add_low (k : Fin 8) : (BitVec.ofNat 4 (4 + k.val)).extractLsb' 0 2 = BitVec.ofNat 2 k.val := by
  revert k; decide

/-- The key `{4 + k, b}` selects the row of payload byte `k`. -/
theorem decode_dataRow (k : Fin 8) (b : Byte) :
    decode (.rxSel (packKey (BitVec.ofNat 4 (4 + k.val)) b)) = .ok (dataRow k b) := by
  have hofs : (BitVec.ofNat 4 (4 + k.val)).toNat = 4 + k.val := by simp; omega
  have hne (n : Ofs) (hn : n.toNat < 4) : BitVec.ofNat 4 (4 + k.val) ≠ n := by rintro rfl; omega
  have h0 := hne 0 (by decide)
  have h1 := hne 1 (by decide)
  rw [decode, decodeRxSel_packKey, if_neg (fun h => h0 h.1), if_neg h0, if_neg (fun h => h1 h.1), if_neg h1,
    if_neg (hne 2 (by decide)), if_neg (hne 3 (by decide)), hofs, ofNat_four_add_low]
  by_cases hk : k.val < 4
  · rw [if_pos (by omega), dataRow_lo hk]
  · rw [if_neg (by omega), if_pos (by omega), dataRow_hi (by omega)]

/-- Both rows store payload byte `k` (41_decoder R127). -/
theorem exec_dataRow (k : Fin 8) (b : Byte) (s : State) :
    exec (dataRow k b) s = .next (s.commit none (rxbData k b s.dec)) := by
  by_cases hk : k.val < 4
  · have hlo : (BitVec.ofNat 2 k.val).toNat = k.val := by simp; omega
    simp only [dataRow_lo hk, exec_rxbDataLo, hlo]
  · have hhi : 4 + (BitVec.ofNat 2 k.val).toNat = k.val := by simp; omega
    simp only [dataRow_hi (Nat.le_of_not_lt hk), exec_rxbDataHi, hhi]

/-- Settles O31: both rows by `dataRow`, and the registers after it by the rules of `setBuf` and `setOfs`. -/
theorem dataStoresThePayloadByte : Obligations.DataStoresThePayloadByte := by
  intro b k
  refine ⟨dataRow k b, decode_dataRow k b, fun hk => dataRow_lo hk b, fun hk => dataRow_hi hk b, fun s h => ?_⟩
  have hnext : BitVec.ofNat 4 (5 + k.val) = s.dec.ofs + 1 := by bv_omega
  have hval : (BitVec.ofNat 4 (5 + k.val)).toNat = 5 + k.val := by simp; omega
  exact ⟨_, exec_dataRow k b s, exec_rxb_of_row (decByte_data b h), hnext, hval, DecState.setBuf_same k b s.dec,
    fun j hj => DecState.setBuf_other hj b s.dec, rfl, rfl, rfl, rfl, rfl, rfl⟩

/-! ### The tail byte -/

/-- Lane `k` of `rx_data` in a step that delivers a frame is its payload byte `k` (30_encoding R68, R73). -/
theorem lane_rxData_of_frame {t : State} {id : Id16} {p : Vector Byte 8} (h : t.rxOut = .frame id p) (k : Fin 8) :
    lane t.rxData k.val = p[k] := by
  rw [State.rxData, h]
  simp [lane_packBytes 64 p.toList k.val (by omega), List.getD_eq_getElem?_getD]

/-- Settles O32: the row of `0x55` gives the registers to the ports, and the identifier is the two bytes side by side. -/
theorem validTailDeliversTheFrame : Obligations.ValidTailDeliversTheFrame := by
  refine ⟨(decodeRxSel_packKey 12 0x55).trans (by simp),
    fun s => ⟨_, exec_rxbTailOk s, fun h => exec_rxb_of_row (decByte_tailOk h), rfl, rfl, rfl,
      lane_rxData_of_frame rfl, ?_⟩⟩
  rw [BitVec.toNat_append, Nat.or_comm]

/-- Settles O33: the row raises, and in `AA C8` it takes the `AA`, so that the `C8` meets the sync scan. -/
theorem badTailRaisesInvalidTail : Obligations.BadTailRaisesInvalidTail := by
  refine ⟨fun b hb => ⟨(decodeRxSel_packKey 12 b).trans (by simpa using hb),
    fun s => ⟨_, exec_rxbTailBad s b, fun h => exec_rxb_of_row (decByte_tailBad hb h), rfl⟩⟩, ?_⟩
  intro s rest h hin
  have hin1 : (s.commit none (rxbTailBad s.dec)).inputs = feed [0xC8] ++ rest := by
    rw [commit_inputs, hin]; rfl
  have hrow : decByte 0xAA s.dec = rxbTailBad s.dec := decByte_tailBad (by decide) h
  have hrow1 : decByte 0xC8 (s.dec.setOfs 0) = rxbSkip (s.dec.setOfs 0) := decByte_skip (by decide) rfl
  refine ⟨_, _, runs_succ_of_byte hin hrow (runs_zero _), rfl,
    runs_succ_of_byte hin hrow (runs_succ_of_byte hin1 hrow1 (runs_zero _)), rfl, rfl, ?_⟩
  rw [commit_inputs, hin1]
  rfl

/-! ### No byte -/

/-- Settles O35, from the row of RXN at `ofs = 0`. -/
theorem noByteInHuntIsNotReady : Obligations.NoByteInHuntIsNotReady :=
  ⟨rxnTableByOfs.1, fun s => ⟨_, exec_rxnNotReady s, fun h => exec_rxn_of_row (decNone_notReady h), rfl⟩⟩

/-- Any positive number of idle steps inside a frame keeps the registers and reports `WAIT`. -/
theorem runs_idle_in_frame (n : Nat) {s : State} {rest : List Input} (hlo : 1 ≤ s.dec.ofs.toNat)
    (hhi : s.dec.ofs.toNat ≤ 12) (hin : s.inputs = asmIdle (n + 1) ++ rest) :
    ∃ t, Runs (n + 1) s t ∧ t.dec = s.dec ∧ t.rxOut = .wait ∧ t.inputs = rest := by
  induction n generalizing s with
  | zero =>
    refine ⟨_, runs_succ_of_noByte hin (decNone_wait hlo hhi) (runs_zero _), rfl, rfl, ?_⟩
    rw [commit_inputs, hin]
    rfl
  | succ n ih =>
    have hleft : (s.commit none (rxnWait s.dec)).inputs = asmIdle (n + 1) ++ rest := by
      rw [commit_inputs, hin]; rfl
    obtain ⟨t, hrun, hdec, hout, hrest⟩ :=
      ih (s := s.commit none (rxnWait s.dec)) hlo hhi hleft
    exact ⟨t, runs_succ_of_noByte hin (decNone_wait hlo hhi) hrun, hdec, hout, hrest⟩

/-- Settles O36: the row of RXN inside a frame, and `runs_idle_in_frame` for any number of idle steps. -/
theorem noByteInFrameWaits : Obligations.NoByteInFrameWaits := by
  refine ⟨fun o hlo hhi => ⟨rxnTableByOfs.2 o hlo hhi, fun s => ⟨_, exec_rxnWait s o, ?_, rfl⟩⟩,
    fun n s rest hlo hhi hin => runs_idle_in_frame n hlo hhi hin⟩
  rintro rfl
  exact exec_rxn_of_row (decNone_wait hlo hhi)

end Sys2Proof.Machine

/-!
PROOFS. The operations of the whole block (42_control R161, R162): `RST`, and `ENC` beside a decoder operation.
-/

namespace Sys2Proof.Machine

/-! ### RST -/

/-- A step word with `rst = 1` is `RST`, whatever its other fields are (30_encoding R69, 42_control R161). -/
theorem decodeStepWord_of_rst {w : StepWord} (hrst : w.rst = true) : decodeStepWord w = .rst :=
  if_pos hrst

/-- A step whose word has `rst = 1` commits the reset registers and the status `NONE` (42_control R161). -/
theorem step_of_rst {s : State} {w : StepWord} {rest : List Input} (hin : s.inputs = .word w :: rest)
    (hrst : w.rst = true) : step s = .next (s.commit none (emit .none DecState.reset)) := by
  rw [step_word hin, decodeStepWord_of_rst hrst, exec_rst]

/-- In the sync scan no other register belongs to an attempt, so `ofs` alone makes two decoder states look alike
(10_state R30, invariant 5). -/
theorem DecState.alike_of_hunt {d e : DecState} (hd : d.ofs = 0) (he : e.ofs = 0) : d.Alike e := by
  have hzero : d.ofs.toNat = 0 := by rw [hd]; rfl
  refine ⟨hd.trans he.symm, fun hlo => ?_, fun hhi => ?_, fun k hk => ?_⟩ <;> omega

/-- Settles O3: the word by its bit 89, the step by `step_of_rst`, and from the sync scan both states are at `ofs = 0`. -/
theorem rstStepResetsTheDecoder : Obligations.RstStepResetsTheDecoder := by
  refine ⟨fun w hrst => congrArg Except.ok (decodeStepWord_of_rst hrst), exec_rst, ?_, ?_⟩
  · intro s w rest hin hrst
    refine ⟨_, step_of_rst hin hrst, rfl, ?_, rfl, rfl, rfl⟩
    rw [commit_inputs, hin, advance_word]
  · intro s t h hexec
    cases (exec_rst s).symm.trans hexec
    exact DecState.alike_of_hunt h rfl

/-! ### ENC beside a decoder operation -/

@[simp] theorem commit_none_encValid (r : DecResult) (s : State) : (s.commit none r).encValid = false := rfl

/-- Settles O18: `commit` takes the frame and the decoder's answer apart, the frame is made from `ENC`'s operands and the
answer from the registers and the byte, so changing one leaves the other. -/
theorem encAndDecoderAreIndependent : Obligations.EncAndDecoderAreIndependent := by
  intro id len data rx rx' s s'
  refine ⟨_, s.commit none (decStep rx s.dec), _, exec_enc id len data rx s, ?_, exec_enc id len data rx' s', ?_⟩
  · cases rx with
    | none => exact exec_rxn s
    | some b => exact exec_rxb s b
  · simp only [commit_dec, commit_rxOut, commit_inputs, commit_encOut, commit_none_encValid,
      commit_some_encValid, and_self]

end Sys2Proof.Machine

/-!
PROOFS. The two exceptions (60_exceptions R170 to R174): what raises each, what taking one writes, and that nothing else
comes of an operation than a next state.
-/

namespace Sys2Proof.Machine

/-! ### What an exception reports -/

theorem errCmd_eq_report_iff (e : FrameError) : .errCmd = e.report ↔ e = .invalidCommand := by
  cases e <;> simp [FrameError.report]

theorem errTail_eq_report_iff (e : FrameError) : .errTail = e.report ↔ e = .invalidTail := by
  cases e <;> simp [FrameError.report]

@[simp] theorem none_ne_report (e : FrameError) : .none ≠ e.report := by
  cases e <;> nofun

@[simp] theorem frame_ne_report (id : Id16) (p : Vector Byte 8) (e : FrameError) : .frame id p ≠ e.report := by
  cases e <;> nofun

@[simp] theorem notReady_ne_report (e : FrameError) : .notReady ≠ e.report := by
  cases e <;> nofun

@[simp] theorem wait_ne_report (e : FrameError) : .wait ≠ e.report := by
  cases e <;> nofun

/-! ### The causes -/

/-- What raises an exception: a wrong command byte at `ofs = 1` (60_exceptions R171), a wrong tail byte at `ofs = 12`
(R172). -/
def FrameError.Cause : FrameError → Byte → DecState → Prop
  | .invalidCommand, b, d => d.ofs = 1 ∧ b ≠ Config.cmd
  | .invalidTail, b, d => d.ofs = 12 ∧ b ≠ Config.eof

/-- Where its cause is met, an exception is taken in that very step (60_exceptions R174). -/
theorem decByte_of_cause {e : FrameError} {b : Byte} {d : DecState} (h : e.Cause b d) : decByte b d = raise e d := by
  cases e with
  | invalidCommand => exact decByte_cmdBad h.2 h.1
  | invalidTail => exact decByte_tailBad h.2 h.1

/-- `RXB` reports an exception exactly when its cause is met: of all rows only `CMD_BAD` and `TAIL_BAD` raise
(60_exceptions R170). -/
theorem decByte_result_eq_report_iff (e : FrameError) (b : Byte) (d : DecState) :
    (decByte b d).result = e.report ↔ e.Cause b d := by
  constructor
  · intro hres
    rcases decByte_cases b d with ⟨-, -, h⟩ | ⟨-, -, h⟩ | ⟨-, -, h⟩ | ⟨hofs, hb, h⟩ | ⟨-, h⟩ | ⟨-, h⟩ | ⟨_, -, h⟩ |
      ⟨-, -, h⟩ | ⟨hofs, hb, h⟩ | ⟨-, h⟩ <;> rw [h] at hres
    case inr.inr.inr.inl =>
      obtain rfl := (errCmd_eq_report_iff e).mp hres
      exact ⟨hofs, hb⟩
    case inr.inr.inr.inr.inr.inr.inr.inr.inl =>
      obtain rfl := (errTail_eq_report_iff e).mp hres
      exact ⟨hofs, hb⟩
    all_goals simp at hres
  · intro h
    rw [decByte_of_cause h, raise_result]

/-- `RXN` raises nothing: it reports `NOT_READY` or `WAIT` (41_decoder R130, R131). -/
theorem decNone_result_ne_report (e : FrameError) (d : DecState) : (decNone d).result ≠ e.report := by
  rcases decNone_cases d with ⟨-, h⟩ | ⟨-, -, h⟩ | ⟨-, h⟩ <;> simp [h]

/-! ### The status codes -/

/-- The status code of an exception is no other result's (30_encoding R74). -/
theorem RxResult.code_eq_report_iff (r : RxResult) (e : FrameError) : r.code = e.report.code ↔ r = e.report := by
  cases r <;> cases e <;> simp [RxResult.code, FrameError.report]

/-- After a step `rx_status` shows an exception's code exactly when the decoder reports it. -/
theorem commit_rxStatus_eq_report_iff (enc : Option FrameBits) (r : DecResult) (s : State) (e : FrameError) :
    (s.commit enc r).rxStatus = e.report.code ↔ r.result = e.report :=
  RxResult.code_eq_report_iff r.result e

/-- The result is one of the two error results exactly when it reports an exception. -/
theorem RxResult.isError_iff (r : RxResult) : (r = .errCmd ∨ r = .errTail) ↔ ∃ e : FrameError, r = e.report := by
  constructor
  · rintro (h | h)
    · exact ⟨.invalidCommand, h⟩
    · exact ⟨.invalidTail, h⟩
  · rintro ⟨_ | _, h⟩
    · exact .inl h
    · exact .inr h

/-! ### The operations -/

/-- No operation stops the machine: "the block raises no exception of any other kind" (60_exceptions R170). -/
theorem exec_eq_next (i : Instr) (s : State) : ∃ t, exec i s = .next t := by
  cases i <;> exact ⟨_, rfl⟩

/-- `RXB` shows an exception's code exactly when its cause is met. -/
theorem exec_rxb_rxStatus_iff (e : FrameError) {b : Byte} {s t : State} (h : exec (.rxb b) s = .next t) :
    t.rxStatus = e.report.code ↔ e.Cause b s.dec := by
  cases (exec_rxb s b).symm.trans h
  rw [commit_rxStatus_eq_report_iff, decByte_result_eq_report_iff]

/-- Without a received byte no operation of the block shows an exception's code. -/
theorem exec_noByte_rxStatus_ne (e : FrameError) {i : Instr} {s t : State}
    (hi : i = .rst ∨ i = .rxn ∨ ∃ id len data, i = .enc id len data none) (h : exec i s = .next t) :
    t.rxStatus ≠ e.report.code := by
  rcases hi with rfl | rfl | ⟨id, len, data, rfl⟩
  · cases (exec_rst s).symm.trans h
    exact fun hcode => none_ne_report e ((commit_rxStatus_eq_report_iff _ _ _ _).mp hcode)
  · cases (exec_rxn s).symm.trans h
    exact fun hcode => decNone_result_ne_report e s.dec ((commit_rxStatus_eq_report_iff _ _ _ _).mp hcode)
  · cases (exec_enc id len data none s).symm.trans h
    exact fun hcode => decNone_result_ne_report e s.dec ((commit_rxStatus_eq_report_iff _ _ _ _).mp hcode)

/-- Settles O39: the status of `RXB` by the causes of the two exceptions, of the others by `exec_noByte_rxStatus_ne`. -/
theorem onlyRxbRaisesItsTwoErrors : Obligations.OnlyRxbRaisesItsTwoErrors :=
  ⟨exec_eq_next,
    fun _ _ _ h => ⟨exec_rxb_rxStatus_iff .invalidCommand h, exec_rxb_rxStatus_iff .invalidTail h⟩,
    fun _ _ _ hi h => ⟨exec_noByte_rxStatus_ne .invalidCommand hi h, exec_noByte_rxStatus_ne .invalidTail hi h⟩⟩

/-- Settles O40: an error result has its cause, the step that meets the cause is `raise`, and the two causes differ
in `ofs`. -/
theorem errorEntryWritesOnlyOfs : Obligations.ErrorEntryWritesOnlyOfs := by
  intro b s t hexec herr
  cases (exec_rxb s b).symm.trans hexec
  obtain ⟨e, he⟩ := (RxResult.isError_iff _).mp herr
  have hcause : e.Cause b s.dec := (decByte_result_eq_report_iff e b s.dec).mp he
  rw [decByte_of_cause hcause, commit_dec, commit_rxOut, raise_next, raise_result]
  refine ⟨rfl, ?_⟩
  cases e with
  | invalidCommand => simp [FrameError.report, hcause.1]
  | invalidTail => simp [FrameError.report, hcause.1]

end Sys2Proof.Machine

/-!
PROOFS. Power-on (70_reset R190): the registers the core starts with are those that `RST` leaves.
-/

namespace Sys2Proof.Machine

/-- No payload register is left undefined by a reset (10_state R31, 70_reset R190). -/
theorem DecState.reset_buf_getElem (k : Fin 8) : DecState.reset.buf[k] = 0x00#8 := by
  revert k; decide

/-- `RST` leaves the reset registers, whatever the state was (70_reset R190, 42_control R161). -/
theorem exec_rst_dec (s : State) : ∃ t, exec .rst s = .next t ∧ t.dec = DecState.reset :=
  ⟨_, exec_rst s, by rw [commit_dec, emit_next]⟩

/-- Settles O1: the core's reset state is `State.reset` by definition, `RST` gives its registers by `exec_rst_dec`, and
they stand in the sync scan, where `ofs` alone decides what looks alike. -/
theorem powerOnRegisters : Obligations.PowerOnRegisters := by
  refine ⟨rfl, ?_⟩
  rw [reset_dec]
  exact ⟨DecState.reset_ofs, DecState.reset_idLo, DecState.reset_idHi, DecState.reset_buf_getElem, exec_rst_dec,
    fun _ hofs => DecState.alike_of_hunt DecState.reset_ofs hofs⟩

end Sys2Proof.Machine

/-!
PROOFS. Steps and runs of the machine (42_control R160): what a step can do for each list of transactions, said once, and
the rules for runs that the later proofs use.
-/

namespace Sys2Proof.Machine

/-! ### The operation that a list of transactions selects -/

/-- `WIRE_FRAME` is the `RXB` of the start sentinel, and the frame's other twelve bytes wait (log entry 8). -/
theorem exec_wireFrame (idl idh : Byte) (data : Lanes) (s : State) : exec (.wireFrame idl idh data) s =
    .next { s.commit none (decByte Config.sof s.dec) with
      inputs := feed ((unpackBytes 13 (packWire idl idh data)).drop 1) ++ s.inputs.drop 1 } := by
  show execWireFrame idl idh data s = _
  rw [execWireFrame, packWire_sof]
  rfl

/-- Where thirteen bytes are fed, the step performs what they begin with (log entry 8). -/
theorem step_fetchFrame {s : State} {f : FrameBits} {rest : List Input} (h : s.inputs = .frame f :: rest) :
    step s = exec (fetchFrame f) s := by
  simp [step, fetchInstr, h]

theorem fetchFrame_of_ok {f : FrameBits} {i : Instr} (h : decode (.wire f) = .ok i) : fetchFrame f = i := by
  simp [fetchFrame, h]

theorem fetchFrame_of_error {f : FrameBits} {e : DecodeError} (h : decode (.wire f) = .error e) :
    fetchFrame f = .rxb (lane f 0) := by
  simp [fetchFrame, h]

/-- A fed frame, wire frame or not, steps as the `RXB` of its first byte (log entry 8). -/
theorem step_frame {s : State} {f : FrameBits} {rest : List Input} (h : s.inputs = .frame f :: rest) :
    step s = .next (s.commit none (decByte (lane f 0) s.dec)) := by
  rw [step_fetchFrame h]
  cases hdec : decode (.wire f) with
  | error e => rw [fetchFrame_of_error hdec, exec_rxb]
  | ok i =>
    obtain ⟨⟨hsof, hcmd, heof⟩, rfl⟩ := (decodeWire_eq_ok_iff f i).mp hdec
    have hleft : advance s.inputs = feed ((unpackBytes 13 f).drop 1) ++ s.inputs.drop 1 := by
      rw [h]; rfl
    rw [fetchFrame_of_ok hdec, exec_wireFrame, ← packWire_fields f hsof hcmd heof, ← hleft, hsof]
    rfl

/-- A host that presents nothing leaves `RXN` to do (log entry 2). -/
theorem step_nil {s : State} (h : s.inputs = []) : step s = .next (s.commit none (decNone s.dec)) := by
  have hfetch : fetchInstr s = .rxn := by simp [fetchInstr, h]
  rw [step, hfetch, exec_rxn]

/-- The frame that a step word asks for, if it asks (30_encoding R69, R71). -/
def encAsked (w : StepWord) : Option FrameBits :=
  if w.encReq then some (encOutput w.encId w.encLen w.encData) else none

/-- A step word with `rst = 0` performs one decoder operation, beside the `ENC` it asks for (30_encoding R69). -/
theorem step_of_noRst {s : State} {w : StepWord} {rest : List Input} (hin : s.inputs = .word w :: rest)
    (hrst : w.rst = false) : step s = .next (s.commit (encAsked w) (decStep w.rx s.dec)) := by
  rw [step_word hin, decodeStepWord, encAsked, StepWord.rx, hrst]
  cases w.encReq <;> cases w.rxValid <;> rfl

/-- All that a step can do, by its transactions alone: reset the decoder, or one decoder operation beside an encoder
output (42_control R160, R161, R162). -/
theorem step_cases (ins : List Input) :
    (∀ s : State, s.inputs = ins → step s = .next (s.commit none (emit .none DecState.reset))) ∨
    ∃ (enc : Option FrameBits) (rx : Option Byte),
      (∀ f, enc = some f → ∃ id len data, f = encOutput id len data) ∧
      ∀ s : State, s.inputs = ins → step s = .next (s.commit enc (decStep rx s.dec)) := by
  match ins with
  | [] => exact .inr ⟨none, none, by simp, fun s h => step_nil h⟩
  | .frame f :: rest => exact .inr ⟨none, some (lane f 0), by simp, fun s h => step_frame h⟩
  | .word w :: rest =>
    cases hrst : w.rst with
    | true => exact .inl fun s h => step_of_rst h hrst
    | false =>
      refine .inr ⟨encAsked w, w.rx, fun f hf => ?_, fun s h => step_of_noRst h hrst⟩
      obtain ⟨-, hout⟩ := Option.ite_none_right_eq_some.mp hf
      exact ⟨_, _, _, (Option.some.inj hout).symm⟩

/-- No step stops the machine (60_exceptions R175). -/
theorem step_eq_next (s : State) : ∃ t, step s = .next t := exec_eq_next (fetchInstr s) s

/-! ### Runs -/

/-- A run of one step more is a step and then a run. -/
theorem runs_succ_iff {k : Nat} {s t : State} : Runs (k + 1) s t ↔ ∃ u, step s = .next u ∧ Runs k u t := by
  obtain ⟨u, hu⟩ := step_eq_next s
  constructor
  · intro h
    exact ⟨u, hu, (run_succ hu).symm.trans h⟩
  · rintro ⟨v, hv, hrun⟩
    exact (run_succ hv).trans hrun

theorem runs_succ {k : Nat} {s u t : State} (hstep : step s = .next u) (hrun : Runs k u t) : Runs (k + 1) s t :=
  runs_succ_iff.mpr ⟨u, hstep, hrun⟩

/-- One step is a run of length 1. -/
theorem runs_one {s t : State} (h : step s = .next t) : Runs 1 s t := runs_succ h (runs_zero t)

/-- Runs follow one another. -/
theorem runs_add {j k : Nat} {s u t : State} (hj : Runs j s u) (hk : Runs k u t) : Runs (j + k) s t := by
  induction j generalizing s with
  | zero =>
    cases (runs_zero s).symm.trans hj
    rwa [Nat.zero_add]
  | succ j ih =>
    obtain ⟨v, hstep, hrest⟩ := runs_succ_iff.mp hj
    rw [Nat.succ_add]
    exact runs_succ hstep (ih hrest)

/-- A run has one end. -/
theorem runs_functional {k : Nat} {s t t' : State} (h : Runs k s t) (h' : Runs k s t') : t = t' := by
  cases h.symm.trans h'
  rfl

/-- Settles O13: a step is the meaning of an instruction, and every meaning answers a next state; a run by induction on
its length. -/
theorem noRunEverStops : Obligations.NoRunEverStops := by
  refine ⟨step_eq_next, fun k => ?_⟩
  induction k with
  | zero => exact fun s => ⟨s, runs_zero s⟩
  | succ k ih =>
    intro s
    obtain ⟨u, hstep⟩ := step_eq_next s
    obtain ⟨t, hrun⟩ := ih u
    exact ⟨t, runs_succ hstep hrun⟩

/-! ### Two machines under the same transactions -/

/-- What two states must share for their next states to share it too: registers related by `R`, and outputs that a host
may read. -/
def Matched (R : DecState → DecState → Prop) (t t' : State) : Prop :=
  R t.dec t'.dec ∧ t.inputs = t'.inputs ∧ t.encOut = t'.encOut ∧ t.rxOut = t'.rxOut

/-- A relation between decoder registers is a simulation when related registers answer every decoder operation with the
same result and related registers, and all registers after a reset are related. -/
structure Simulation (R : DecState → DecState → Prop) : Prop where
  at_reset : R DecState.reset DecState.reset
  after_op (rx : Option Byte) {d e : DecState} : R d e →
    R (decStep rx d).next (decStep rx e).next ∧ (decStep rx d).result = (decStep rx e).result

section Simulation
variable {R : DecState → DecState → Prop} {s s' t t' : State}

/-- One step of two machines that a simulation relates, under the same transactions. -/
theorem Simulation.step_matched (hR : Simulation R) (hdec : R s.dec s'.dec) (hin : s.inputs = s'.inputs)
    (ht : step s = .next t) (ht' : step s' = .next t') : Matched R t t' := by
  rcases step_cases s.inputs with hreset | ⟨enc, rx, -, hop⟩
  · cases (hreset s rfl).symm.trans ht
    cases (hreset s' hin.symm).symm.trans ht'
    exact ⟨hR.at_reset, congrArg advance hin, rfl, rfl⟩
  · cases (hop s rfl).symm.trans ht
    cases (hop s' hin.symm).symm.trans ht'
    obtain ⟨hnext, hresult⟩ := hR.after_op rx hdec
    exact ⟨hnext, congrArg advance hin, rfl, hresult⟩

/-- Any positive number of steps of two machines that a simulation relates. -/
theorem Simulation.runs_matched (hR : Simulation R) {k : Nat} (hdec : R s.dec s'.dec) (hin : s.inputs = s'.inputs)
    (ht : Runs (k + 1) s t) (ht' : Runs (k + 1) s' t') : Matched R t t' := by
  induction k generalizing s s' with
  | zero =>
    obtain ⟨u, hu, hrun⟩ := runs_succ_iff.mp ht
    obtain ⟨u', hu', hrun'⟩ := runs_succ_iff.mp ht'
    cases (runs_zero u).symm.trans hrun
    cases (runs_zero u').symm.trans hrun'
    exact hR.step_matched hdec hin hu hu'
  | succ k ih =>
    obtain ⟨u, hu, hrun⟩ := runs_succ_iff.mp ht
    obtain ⟨u', hu', hrun'⟩ := runs_succ_iff.mp ht'
    obtain ⟨hdec1, hin1, -, -⟩ := hR.step_matched hdec hin hu hu'
    exact ih hdec1 hin1 hrun hrun'

end Simulation

/-- Equality of the registers is a simulation: the decoder reads nothing else (41_decoder R120). -/
theorem simulation_eq : Simulation Eq where
  at_reset := rfl
  after_op rx d e h := by rw [h]; exact ⟨rfl, rfl⟩

/-- Settles O14: what a host may read is the registers' `ofs` and the two outputs, and equal registers are a
simulation. -/
theorem outputsAreNeverReadBack : Obligations.OutputsAreNeverReadBack := by
  intro k s s' t t' hdec hin ht ht'
  obtain ⟨hdec, hin, henc, hrx⟩ := simulation_eq.runs_matched hdec hin ht ht'
  exact ⟨hdec, hin, by rw [State.observe, State.observe, State.rxOfs, State.rxOfs, hdec, henc, hrx]⟩

end Sys2Proof.Machine

/-!
PROOFS. The decoder against the encoder (30_encoding R61, R69, R75, R76): encoding and then decoding, decoding and then
encoding, and what can come of decoding at all.
-/

namespace Sys2Proof

/-! ### Decoding what was encoded -/

/-- The decoder input of `ENC` is read back from its bit and its byte (30_encoding R72). -/
theorem rxBits_roundTrip (rx : Option Byte) : (if (rxBits rx).1 = 1 then some (rxBits rx).2 else none) = rx := by
  cases rx <;> rfl

/-- `ofs` of the row `01` above two open bits. -/
theorem ofsLo_spec (k : BitVec 2) :
    4 ≤ (1#2 ++ k : Ofs).toNat ∧ (1#2 ++ k : Ofs).toNat < 8 ∧ (1#2 ++ k : Ofs).extractLsb' 0 2 = k := by
  revert k; decide

/-- `ofs` of the row `10` above two open bits. -/
theorem ofsHi_spec (k : BitVec 2) :
    8 ≤ (2#2 ++ k : Ofs).toNat ∧ (2#2 ++ k : Ofs).toNat < 12 ∧ (2#2 ++ k : Ofs).extractLsb' 0 2 = k := by
  revert k; decide

/-- `ofs` of the row `111` above one open bit. -/
theorem ofsTop_spec (x : BitVec 1) : 14 ≤ (7#3 ++ x : Ofs).toNat ∧ (7#3 ++ x : Ofs).extractLsb' 0 1 = x := by
  revert x; decide

section
variable {o : Ofs} (b : Byte)

/-- A key with `ofs` in 4 to 7 selects the first row of `RXB.DATA` (30_encoding R75). -/
theorem decodeRxSel_dataLo (hlo : 4 ≤ o.toNat) (hhi : o.toNat < 8) :
    decodeRxSel (packKey o b) = .ok (.rxbDataLo (o.extractLsb' 0 2) b) := by
  have hne (n : Ofs) (hn : n.toNat < 4) : o ≠ n := by rintro rfl; omega
  simp [decodeRxSel_packKey, hne, hlo, hhi]

/-- A key with `ofs` in 8 to 11 selects the second row of `RXB.DATA` (30_encoding R75). -/
theorem decodeRxSel_dataHi (hlo : 8 ≤ o.toNat) (hhi : o.toNat < 12) :
    decodeRxSel (packKey o b) = .ok (.rxbDataHi (o.extractLsb' 0 2) b) := by
  have hne (n : Ofs) (hn : n.toNat < 4) : o ≠ n := by rintro rfl; omega
  simp [decodeRxSel_packKey, hne, show ¬ o.toNat < 8 by omega, hlo, hhi]

/-- A key with `ofs` 14 or 15 selects the second row of `RXB.UNREACHABLE` (30_encoding R75, R77). -/
theorem decodeRxSel_unreachableEF (h : 14 ≤ o.toNat) :
    decodeRxSel (packKey o b) = .ok (.rxbUnreachableEF (o.extractLsb' 0 1) b) := by
  have hne (n : Ofs) (hn : n.toNat < 14) : o ≠ n := by rintro rfl; omega
  simp [decodeRxSel_packKey, hne, show ¬ o.toNat < 8 by omega, show ¬ o.toNat < 12 by omega, h]

end

/-- Settles O4: the step words, the keys of the two tables and the wire frame by their own lemmas; where a row is hidden for
one byte, well-formedness says that the byte is another. -/
theorem decodeEncodeAgree : Obligations.DecodeEncodeAgree := by
  intro i hwf
  cases i with
  | rst => exact congrArg Except.ok (decodeStepWord_packStepWord _ _ _ _ _ _ _)
  | enc id len data rx =>
    rw [encode, decode, decodeStepWord_packStepWord, rxBits_roundTrip]
    rfl
  | rxb b => exact congrArg Except.ok (decodeStepWord_packStepWord _ _ _ _ _ _ _)
  | rxn => exact congrArg Except.ok (decodeStepWord_packStepWord _ _ _ _ _ _ _)
  | rxbSof => exact (decodeRxSel_packKey 0 Config.sof).trans (by simp)
  | rxbSkip b => exact (decodeRxSel_packKey 0 b).trans (by simpa [Instr.wf] using hwf)
  | rxbCmdOk => exact (decodeRxSel_packKey 1 Config.cmd).trans (by simp)
  | rxbCmdBad b => exact (decodeRxSel_packKey 1 b).trans (by simpa [Instr.wf] using hwf)
  | rxbIdl b => exact (decodeRxSel_packKey 2 b).trans (by simp)
  | rxbIdh b => exact (decodeRxSel_packKey 3 b).trans (by simp)
  | rxbDataLo k b =>
    obtain ⟨hlo, hhi, hk⟩ := ofsLo_spec k
    exact (decodeRxSel_dataLo b hlo hhi).trans (by rw [hk])
  | rxbDataHi k b =>
    obtain ⟨hlo, hhi, hk⟩ := ofsHi_spec k
    exact (decodeRxSel_dataHi b hlo hhi).trans (by rw [hk])
  | rxbTailOk => exact (decodeRxSel_packKey 12 Config.eof).trans (by simp)
  | rxbTailBad b => exact (decodeRxSel_packKey 12 b).trans (by simpa [Instr.wf] using hwf)
  | rxbUnreachableD b => exact (decodeRxSel_packKey 13 b).trans (by simp)
  | rxbUnreachableEF x b =>
    obtain ⟨htop, hx⟩ := ofsTop_spec x
    exact (decodeRxSel_unreachableEF b htop).trans (by rw [hx])
  | rxnNotReady => exact Machine.noByteInHuntIsNotReady.1
  | rxnWait o =>
    obtain ⟨hlo, hhi⟩ := of_decide_eq_true hwf
    exact rxnTableByOfs.2 o hlo hhi
  | wireFrame idl idh data => exact decodeWire_packWire idl idh data

/-! ### What can come of decoding -/

/-- A step word decodes to one of the four operations, which have no ill-formed operand (30_encoding R69). -/
theorem decodeStepWord_wf (w : StepWord) : (decodeStepWord w).wf = true := by
  unfold decodeStepWord
  split_ifs <;> rfl

/-- Of the rows of RXB only three refuse a byte, and that byte has the row before (30_encoding R75). -/
theorem decodeRxSel_wf {key : RxKey} {i : Instr} (h : decodeRxSel key = .ok i) : i.wf = true := by
  rw [packKey_fields key] at h
  obtain rfl := Except.ok.inj (h.symm.trans (rxbTableFirstMatch (key.extractLsb' 8 4) (RxKey.byte key)))
  split_ifs with h0 hsof h1 hcmd h2 h3 h8 h12 htail heof h13
  case neg | neg | neg => exact bne_iff_ne.mpr ‹_›
  all_goals rfl

/-- `RXN.WAIT` is handed out with `ofs` 1 to 12 alone (30_encoding R76). -/
theorem decodeRxnOfs_wf {o : Ofs} {i : Instr} (h : decodeRxnOfs o = .ok i) : i.wf = true := by
  unfold decodeRxnOfs at h
  split_ifs at h with h0 h12 <;> cases h
  · rfl
  · have hpos : 1 ≤ o.toNat := by bv_omega
    exact decide_eq_true ⟨hpos, h12⟩

/-- Settles O5, format by format. -/
theorem decodedIsWellFormed : Obligations.DecodedIsWellFormed := by
  intro c i h
  cases c with
  | step w =>
    cases h
    exact decodeStepWord_wf w
  | rxSel key => exact decodeRxSel_wf h
  | rxnOfs o => exact decodeRxnOfs_wf h
  | wire f =>
    obtain ⟨-, rfl⟩ := (decodeWire_eq_ok_iff f i).mp h
    rfl

/-! ### Encoding what was decoded -/

/-- A mask applies to each field of a step word apart (30_encoding R69). -/
theorem packStepWord_and_packStepWord (r e v r' e' v' : BitVec 1) (id id' : Id11) (len len' : Len) (data data' : Lanes)
    (b b' : Byte) : packStepWord r e v id len data b &&& packStepWord r' e' v' id' len' data' b' =
      packStepWord (r &&& r') (e &&& e') (v &&& v') (id &&& id') (len &&& len') (data &&& data') (b &&& b') := by
  show (r ++ e ++ v ++ id ++ len ++ data ++ b : BitVec (1 + 1 + 1 + 11 + 4 + 64 + 8)) &&&
    (r' ++ e' ++ v' ++ id' ++ len' ++ data' ++ b') = _
  simp only [BitVec.and_append, packStepWord]

/-- The bits of a step word that its operation reads (30_encoding R69). -/
def readMask (w : StepWord) : StepWord :=
  if w.getLsbD 89 then 0x20000000000000000000000#90
  else if w.getLsbD 88 then
    (if w.getLsbD 87 then 0x1FFFFFFFFFFFFFFFFFFFFFF#90 else 0x17FFFFFFFFFFFFFFFFFFF00#90)
  else if w.getLsbD 87 then 0x080000000000000000000FF#90
  else 0#90

/-- A field of one bit is 0 or 1. -/
theorem bit_cases (x : BitVec 1) : x = 0 ∨ x = 1 := by
  revert x; decide

/-- The mask of a packed step word, field by field: a field is kept whole or cleared whole (30_encoding R69). -/
theorem readMask_packStepWord (r e v : BitVec 1) (id : Id11) (len : Len) (data : Lanes) (b : Byte) :
    readMask (packStepWord r e v id len data b) =
      if r = 1 then packStepWord 1 0 0 0 0 0 0
      else if e = 1 then
        (if v = 1 then packStepWord 0 1 1 (.allOnes 11) (.allOnes 4) (.allOnes 64) (.allOnes 8)
         else packStepWord 0 1 0 (.allOnes 11) (.allOnes 4) (.allOnes 64) 0)
      else if v = 1 then packStepWord 0 0 1 0 0 0 (.allOnes 8)
      else packStepWord 0 0 0 0 0 0 0 := by
  have hrst : (packStepWord r e v id len data b).getLsbD 89 = r.getLsbD 0 := packStepWord_rst ..
  have hreq : (packStepWord r e v id len data b).getLsbD 88 = e.getLsbD 0 := packStepWord_encReq ..
  have hrx : (packStepWord r e v id len data b).getLsbD 87 = v.getLsbD 0 := packStepWord_rxValid ..
  simp only [readMask, hrst, hreq, hrx, getLsbD_zero_iff]
  rfl

/-- The encoding of what a packed step word decodes to keeps the fields that the operation reads. -/
theorem encode_decodeStepWord_packStepWord (r e v : BitVec 1) (id : Id11) (len : Len) (data : Lanes) (b : Byte) :
    encode (decodeStepWord (packStepWord r e v id len data b)) =
      .step (packStepWord r e v id len data b &&& readMask (packStepWord r e v id len data b)) := by
  rw [decodeStepWord_packStepWord, readMask_packStepWord]
  rcases bit_cases r with rfl | rfl
  case inr => simp [encode, -BitVec.reduceAllOnes, packStepWord_and_packStepWord]
  rcases bit_cases e with rfl | rfl
  · rcases bit_cases v with rfl | rfl <;> simp [encode, -BitVec.reduceAllOnes, packStepWord_and_packStepWord]
  · rcases bit_cases v with rfl | rfl <;> simp [encode, rxBits, -BitVec.reduceAllOnes, packStepWord_and_packStepWord]

/-- Settles O6: a step word is its packed fields. -/
theorem encodeDecodedStepWord : Obligations.EncodeDecodedStepWord := by
  intro w
  refine ⟨decodeStepWord w, rfl, ?_⟩
  change encode (decodeStepWord w) = .step (w &&& readMask w)
  rw [packStepWord_fields w]
  exact encode_decodeStepWord_packStepWord _ _ _ _ _ _ _

/-! ### Words given to the decoder, and what a step makes of them -/

/-- Settles O11: each word evaluates, by its width, to the row it was written out from. -/
theorem sampleWordsDecode : Obligations.SampleWordsDecode := by
  refine ⟨?_, ?_, ?_, ?_, ?_, ?_, ?_, ?_, ?_, ?_, ?_, ?_, ?_⟩ <;> decide

end Sys2Proof

namespace Sys2Proof.Machine

/-- Settles O12: the fetch of each kind of transaction, as `decode` answers it. -/
theorem stepRunsTheDecodedInstruction : Obligations.StepRunsTheDecodedInstruction := by
  refine ⟨fun s w rest i hin hdec => ?_, fun s f rest i hin hdec => ?_, fun s f rest e hin hdec => ?_, fun s hin => ?_⟩
  · cases hdec
    exact step_word hin
  · rw [step_fetchFrame hin, fetchFrame_of_ok hdec]
  · rw [step_fetchFrame hin, fetchFrame_of_error hdec]
  · rw [step_nil hin, exec_rxn]

/-- The thirteen bytes of a fed frame are its first byte and the bytes that wait. -/
theorem unpackBytes_thirteen (f : FrameBits) : unpackBytes 13 f = lane f 0 :: (unpackBytes 13 f).drop 1 := rfl

/-- Settles O15: both are the `RXB` of the first byte, and both leave the other twelve. -/
theorem fedFrameIsThirteenBytes : Obligations.FedFrameIsThirteenBytes := by
  intro s f rest
  rw [step_frame (s := { s with inputs := .frame f :: rest }) rfl, unpackBytes_thirteen f, feed_cons, List.cons_append,
    step_rxWord (s := { s with inputs := .word (rxWord (some (lane f 0))) :: _ }) rfl]
  rfl

/-- A step word gives an encoder output exactly when it asks for one (30_encoding R71). -/
theorem encAsked_isSome (w : StepWord) : (encAsked w).isSome = w.encReq := by
  rw [encAsked]
  cases w.encReq <;> rfl

/-- Settles O20: `RST` gives no encoder output, and without it the step word's `enc_req` decides. -/
theorem encValidExactlyWhenAsked : Obligations.EncValidExactlyWhenAsked := by
  intro s t w rest hin hstep
  change t.encValid = true ↔ w.rst = false ∧ w.encReq = true
  cases hrst : w.rst with
  | true =>
    cases (step_of_rst hin hrst).symm.trans hstep
    simp
  | false =>
    cases (step_of_noRst hin hrst).symm.trans hstep
    rw [State.encValid, commit_encOut, encAsked_isSome]
    simp

end Sys2Proof.Machine

/-!
PROOFS. The decoder's operations taken together (41_decoder R120, R134, R139, 20_memory R54, 10_state R30): the row that is
selected, the registers that stay, the results, and the invariants that every operation keeps.
-/

namespace Sys2Proof.Machine

/-! ### The recovered codes of `ofs` -/

section
variable {d : DecState}

/-- What the sync scan recovers to is the same for every byte, `0xAA` too (30_encoding R77, log entry 5). -/
theorem recover_hunt (b : Byte) (d : DecState) : recover (hunt b) d = ⟨d.setOfs 0, .none⟩ := by
  by_cases hb : b = Config.sof <;> simp [recover, hunt, hb, rxbSof, rxbSkip, emit]

theorem ofs_ne_of_lt {o n : Ofs} (h : n.toNat < o.toNat) : o ≠ n := by
  rintro rfl; omega

theorem decByte_unreachable (b : Byte) (h : 13 ≤ d.ofs.toNat) : decByte b d = recover (hunt b) d := by
  have hne (n : Ofs) (hn : n.toNat < 13) : d.ofs ≠ n := ofs_ne_of_lt (by omega)
  rw [decByte, if_neg (hne 0 (by decide)), if_neg (hne 1 (by decide)), if_neg (hne 2 (by decide)),
    if_neg (hne 3 (by decide)), dif_neg (by omega), if_neg (hne 12 (by decide))]

theorem decNone_unreachable (h : 13 ≤ d.ofs.toNat) : decNone d = recover rxnNotReady d := by
  have hne : d.ofs ≠ 0 := ofs_ne_of_lt (by simp; omega)
  rw [decNone, if_neg hne, if_neg (by omega)]

theorem exec_rxbUnreachableD (b : Byte) (s : State) :
    exec (.rxbUnreachableD b) s = .next (s.commit none (recover (hunt b) s.dec)) := rfl

theorem exec_rxbUnreachableEF (x : BitVec 1) (b : Byte) (s : State) :
    exec (.rxbUnreachableEF x b) s = .next (s.commit none (recover (hunt b) s.dec)) := rfl

end

/-- Settles O34: all three are the recovery of the sync scan, which has one answer. -/
theorem unreachableOfsRecovers : Obligations.UnreachableOfsRecovers := by
  refine ⟨fun b x s => ⟨_, exec_rxbUnreachableD b s, exec_rxbUnreachableEF x b s,
    fun h => exec_rxb_of_row (decByte_unreachable b h), ?_⟩, fun s h => ?_⟩
  · rw [recover_hunt]; rfl
  · exact exec_rxn_of_row (decNone_unreachable h)

/-- Settles O54: both rows of the table by `dataRow`. -/
theorem dataRowWritesItsOperandsRegister : Obligations.DataRowWritesItsOperandsRegister := by
  rintro b s k i rfl
  exact exec_dataRow k b s

/-! ### The selected row -/

/-- The row `i` is the one the decoder performs on byte `b` (41_decoder R120). -/
def Performs (s : State) (b : Byte) (i : Instr) : Prop :=
  decode (.rxSel (packKey s.dec.ofs b)) = .ok i ∧ exec i s = exec (.rxb b) s

/-- `RXB` performs the row that its key selects, by the rows of 30_encoding R75. -/
theorem exists_performs (b : Byte) (s : State) : ∃ i, Performs s b i := by
  rcases decByte_cases b s.dec with ⟨h, rfl, -⟩ | ⟨h, hb, -⟩ | ⟨h, rfl, -⟩ | ⟨h, hb, -⟩ | ⟨h, -⟩ | ⟨h, -⟩ | ⟨k, h, -⟩ |
    ⟨h, rfl, -⟩ | ⟨h, hb, -⟩ | ⟨h, -⟩
  · exact ⟨.rxbSof, h ▸ sofStartsAnAttempt.1, (exec_rxb_of_row (decByte_sof h)).symm⟩
  · exact ⟨.rxbSkip b, h ▸ (skipDiscardsTheByte b hb).1, (exec_rxb_of_row (decByte_skip hb h)).symm⟩
  · exact ⟨.rxbCmdOk, h ▸ validCommandAdvances.1, (exec_rxb_of_row (decByte_cmdOk h)).symm⟩
  · exact ⟨.rxbCmdBad b, h ▸ (badCommandRaisesInvalidCommand.1 b hb).1, (exec_rxb_of_row (decByte_cmdBad hb h)).symm⟩
  · exact ⟨.rxbIdl b, h ▸ (idlStoresTheLowByte b).1, (exec_rxb_of_row (decByte_idl b h)).symm⟩
  · exact ⟨.rxbIdh b, h ▸ (idhStoresTheHighByte b).1, (exec_rxb_of_row (decByte_idh b h)).symm⟩
  · have hofs : s.dec.ofs = BitVec.ofNat 4 (4 + k.val) := by bv_omega
    exact ⟨dataRow k b, hofs ▸ decode_dataRow k b, (exec_dataRow k b s).trans (exec_rxb_of_row (decByte_data b h)).symm⟩
  · exact ⟨.rxbTailOk, h ▸ validTailDeliversTheFrame.1, (exec_rxb_of_row (decByte_tailOk h)).symm⟩
  · exact ⟨.rxbTailBad b, h ▸ (badTailRaisesInvalidTail.1 b hb).1, (exec_rxb_of_row (decByte_tailBad hb h)).symm⟩
  · have hrow := (exec_rxb_of_row (decByte_unreachable b h)).symm
    by_cases h13 : s.dec.ofs = 13
    · exact ⟨.rxbUnreachableD b, h13 ▸ (decodeRxSel_packKey 13 b).trans (by simp), hrow⟩
    · exact ⟨_, decodeRxSel_unreachableEF b (by bv_omega), hrow⟩

/-- Settles O37: `RXB` by `exists_performs`, `RXN` by its two rows. -/
theorem decoderRunsTheSelectedRow : Obligations.DecoderRunsTheSelectedRow := by
  constructor
  · intro b s
    obtain ⟨i, hdec, hexec⟩ := exists_performs b s
    exact ⟨i, _, hdec, hexec, exec_rxb s b⟩
  · intro s hlegal
    by_cases h : s.dec.ofs = 0
    · exact ⟨.rxnNotReady, _, h ▸ rxnTableByOfs.1, exec_rxnNotReady s, exec_rxn_of_row (decNone_notReady h)⟩
    · have hlo : 1 ≤ s.dec.ofs.toNat := by bv_omega
      exact ⟨.rxnWait s.dec.ofs, _, rxnTableByOfs.2 _ hlo hlegal, exec_rxnWait s _,
        exec_rxn_of_row (decNone_wait hlo hlegal)⟩

/-! ### The registers that stay -/

/-- `RXN` leaves every register of a legal state (41_decoder R130, R131). -/
theorem decNone_next_of_legal {d : DecState} (h : d.Legal) : (decNone d).next = d := by
  rcases decNone_cases d with ⟨-, hrow⟩ | ⟨-, -, hrow⟩ | ⟨hofs, -⟩
  · rw [hrow]
  · rw [hrow]
  · exact absurd h (by unfold DecState.Legal; omega)

/-- Settles O17: without a byte the decoder's part of the step is `RXN`, and the frame is made of the operands alone. -/
theorem encLeavesTheRegisters : Obligations.EncLeavesTheRegisters :=
  fun id len data s s' hlegal =>
    ⟨_, _, exec_enc id len data none s, exec_enc id len data none s', decNone_next_of_legal hlegal, rfl⟩

/-- `RXB` writes, beside `ofs`, at most the register that `ofs` selects (20_memory R54). -/
theorem decByte_frame (b : Byte) (d : DecState) :
    (d.ofs ≠ 2 → (decByte b d).next.idLo = d.idLo) ∧ (d.ofs ≠ 3 → (decByte b d).next.idHi = d.idHi) ∧
    ∀ k : Fin 8, d.ofs.toNat ≠ 4 + k.val → (decByte b d).next.buf[k] = d.buf[k] := by
  rcases decByte_cases b d with ⟨-, -, h⟩ | ⟨-, -, h⟩ | ⟨-, -, h⟩ | ⟨-, -, h⟩ | ⟨hofs, h⟩ | ⟨hofs, h⟩ | ⟨j, hofs, h⟩ |
    ⟨-, -, h⟩ | ⟨-, -, h⟩ | ⟨-, h⟩ <;> rw [h]
  case inr.inr.inr.inr.inl => exact ⟨fun hne => absurd hofs hne, fun _ => rfl, fun _ _ => rfl⟩
  case inr.inr.inr.inr.inr.inl => exact ⟨fun _ => rfl, fun hne => absurd hofs hne, fun _ _ => rfl⟩
  case inr.inr.inr.inr.inr.inr.inl =>
    exact ⟨fun _ => rfl, fun _ => rfl, fun k hk => DecState.setBuf_other (by rintro rfl; exact hk hofs) b d⟩
  all_goals exact ⟨fun _ => rfl, fun _ => rfl, fun _ _ => rfl⟩

/-- Settles O38, by `decByte_frame`; `ENC` with `RXB` has the registers of `RXB` by `exec_enc`. -/
theorem rxbWritesAtMostOneField : Obligations.RxbWritesAtMostOneField := by
  refine ⟨fun b s t ht => ?_, fun s t hlegal ht => ?_, fun id len data b s t u ht hu => ?_⟩
  · cases (exec_rxb s b).symm.trans ht
    exact decByte_frame b s.dec
  · cases (exec_rxn s).symm.trans ht
    exact decNone_next_of_legal hlegal
  · cases (exec_enc id len data (some b) s).symm.trans ht
    cases (exec_rxb s b).symm.trans hu
    rfl

/-! ### Results -/

/-- A step with a decoder operation, alone or beside an `ENC` (42_control R162). -/
theorem exec_decoderOp {rx : Option Byte} {i : Instr} {s t : State}
    (hi : i = (match rx with | some b => Instr.rxb b | none => Instr.rxn) ∨ ∃ id len data, i = .enc id len data rx)
    (ht : exec i s = .next t) : ∃ enc, t = s.commit enc (decStep rx s.dec) := by
  rcases hi with rfl | ⟨id, len, data, rfl⟩
  · cases rx with
    | none =>
      cases (exec_rxn s).symm.trans ht
      exact ⟨none, rfl⟩
    | some b =>
      cases (exec_rxb s b).symm.trans ht
      exact ⟨none, rfl⟩
  · cases (exec_enc id len data rx s).symm.trans ht
    exact ⟨_, rfl⟩

/-- The status codes of `RXB` (41_decoder R134). -/
theorem decByte_code_cases (b : Byte) (d : DecState) :
    (decByte b d).result.code = 0 ∨ (decByte b d).result.code = 1 ∨ (decByte b d).result.code = 2 ∨
      (decByte b d).result.code = 3 := by
  rcases decByte_cases b d with ⟨-, -, h⟩ | ⟨-, -, h⟩ | ⟨-, -, h⟩ | ⟨-, -, h⟩ | ⟨-, h⟩ | ⟨-, h⟩ | ⟨_, -, h⟩ |
    ⟨-, -, h⟩ | ⟨-, -, h⟩ | ⟨-, h⟩ <;> simp [h, RxResult.code]

/-- `RXN` reports `NOT_READY` or `WAIT` (41_decoder R130, R131). -/
theorem decNone_result_cases (d : DecState) : (decNone d).result = .notReady ∨ (decNone d).result = .wait := by
  rcases decNone_cases d with ⟨-, h⟩ | ⟨-, -, h⟩ | ⟨-, h⟩ <;> simp [h]

/-- The decoder's result agrees with the registers it leaves, after every operation from any state (41_decoder R134,
30_encoding R73, R76). -/
theorem decStep_agrees (rx : Option Byte) (d : DecState) : (decStep rx d).result.Agrees (decStep rx d).next := by
  cases rx with
  | some b =>
    show (decByte b d).result.Agrees (decByte b d).next
    rcases decByte_cases b d with ⟨-, -, h⟩ | ⟨-, -, h⟩ | ⟨-, -, h⟩ | ⟨-, -, h⟩ | ⟨-, h⟩ | ⟨-, h⟩ | ⟨j, -, h⟩ |
      ⟨-, -, h⟩ | ⟨-, -, h⟩ | ⟨-, h⟩ <;> simp [h, RxResult.Agrees]
  | none =>
    show (decNone d).result.Agrees (decNone d).next
    rcases decNone_cases d with ⟨hofs, h⟩ | ⟨hofs, -, h⟩ | ⟨-, h⟩
    · simpa [h, RxResult.Agrees] using hofs
    · simpa [h, RxResult.Agrees] using hofs
    · simp [h, RxResult.Agrees]

/-- A frame or an error that agrees with the registers is shown at `ofs = 0` (41_decoder R134). -/
theorem RxResult.Agrees.ofs_of_code {r : RxResult} {d : DecState} (h : r.Agrees d)
    (hcode : r.code = 1 ∨ r.code = 2 ∨ r.code = 3) : d.ofs = 0 := by
  cases r with
  | frame id p => exact h.1
  | errCmd => exact h
  | errTail => exact h
  | none => simp [RxResult.code] at hcode
  | notReady => simp [RxResult.code] at hcode
  | wait => simp [RxResult.code] at hcode

/-- A result of the source's `decode` that agrees with the registers is shown at `ofs = 0` (41_decoder R139). -/
theorem RxResult.Agrees.ofs_of_source {r : RxResult} {d : DecState} (h : r.Agrees d) {x : SourceResult}
    (hsource : r.source = some x) : d.ofs = 0 := by
  cases r with
  | frame id p => exact h.1
  | errCmd => exact h
  | errTail => exact h
  | notReady => exact h
  | none => cases hsource
  | wait => cases hsource

/-- Settles O41: the codes by `RXB` and `RXN`, and `ofs` by the agreement of result and registers. -/
theorem resultPartition : Obligations.ResultPartition := by
  intro rx s t i hi ht
  obtain ⟨enc, rfl⟩ := exec_decoderOp hi ht
  refine ⟨fun hsome => ?_, fun hnone => ?_, (decStep_agrees rx s.dec).ofs_of_code⟩
  · obtain ⟨b, rfl⟩ := Option.isSome_iff_exists.mp hsome
    exact decByte_code_cases b s.dec
  · subst hnone
    exact (decNone_result_cases s.dec).imp (congrArg RxResult.code) (congrArg RxResult.code)

/-- After every step the decoder's output agrees with the registers (41_decoder R134). -/
theorem step_agrees {s t : State} (h : step s = .next t) : t.rxOut.Agrees t.dec := by
  rcases step_cases s.inputs with hreset | ⟨enc, rx, -, hop⟩
  · cases (hreset s rfl).symm.trans h
    trivial
  · cases (hop s rfl).symm.trans h
    exact decStep_agrees rx s.dec

/-- Settles O43, from the agreement of a step's result with the registers it leaves. -/
theorem attemptEndsWithASourceResult : Obligations.AttemptEndsWithASourceResult :=
  ⟨fun _ _ => rfl, rfl, rfl, rfl, rfl, rfl, fun _ _ _ hstep hsource => (step_agrees hstep).ofs_of_source hsource⟩

/-- Settles O42: the code of each result, and six results have six codes. -/
theorem statusCodes : Obligations.StatusCodes := by
  refine ⟨rfl, fun _ _ => rfl, rfl, rfl, rfl, rfl, fun s => ?_⟩
  rw [State.rxStatus]
  cases s.rxOut <;> exact ⟨by simp [RxResult.code], by simp [RxResult.code]⟩

/-! ### The invariant of the machine -/

/-- Every decoder operation leaves `ofs` in 0 to 12, from any state (10_state R30, invariant 1). -/
theorem decStep_legal (rx : Option Byte) (d : DecState) : (decStep rx d).next.Legal := by
  unfold DecState.Legal
  cases rx with
  | some b =>
    show (decByte b d).next.ofs.toNat ≤ 12
    rcases decByte_cases b d with ⟨-, -, h⟩ | ⟨hofs, -, h⟩ | ⟨-, -, h⟩ | ⟨-, -, h⟩ | ⟨-, h⟩ | ⟨-, h⟩ | ⟨_, -, h⟩ |
      ⟨-, -, h⟩ | ⟨-, -, h⟩ | ⟨-, h⟩ <;> simp [h]
    case inr.inl => simp [hofs]
    case inr.inr.inr.inr.inr.inr.inl => omega
  | none =>
    show (decNone d).next.ofs.toNat ≤ 12
    rcases decNone_cases d with ⟨hofs, h⟩ | ⟨-, hle, h⟩ | ⟨-, h⟩
    · simp [h, hofs]
    · simpa [h] using hle
    · simp [h]

/-- The encoder's output is a wire frame of an 11-bit identifier (30_encoding R61, R63). -/
theorem encodedFrame_encOutput (id : Id11) (len : Len) (data : Lanes) : EncodedFrame (encOutput id len data) := by
  refine ⟨lane_encOutput_sof id len data, lane_encOutput_cmd id len data, ?_, lane_encOutput_eof id len data⟩
  rw [lane_encOutput_idh, splitHi_toNat]
  omega

/-- Settles O44: after a reset `ofs` is 0, and the outputs are those of a step that reports nothing. -/
theorem invariantAtPowerOn : Obligations.InvariantAtPowerOn :=
  ⟨by rw [reset_dec, DecState.Legal, DecState.reset_ofs]; decide, trivial, fun _ h => nomatch h⟩

/-- Settles O45: each part holds after every step, whatever the step started from. -/
theorem everyStepKeepsTheInvariant : Obligations.EveryStepKeepsTheInvariant := by
  intro s t _ hstep
  rcases step_cases s.inputs with hreset | ⟨enc, rx, henc, hop⟩
  · cases (hreset s rfl).symm.trans hstep
    exact ⟨invariantAtPowerOn.1, trivial, fun _ hf => nomatch hf⟩
  · cases (hop s rfl).symm.trans hstep
    refine ⟨decStep_legal rx s.dec, decStep_agrees rx s.dec, fun f hf => ?_⟩
    obtain ⟨id, len, data, rfl⟩ := henc f hf
    exact encodedFrame_encOutput id len data

/-- Settles O2: `RST` commits the reset registers and the outputs of `State.reset`. -/
theorem powerOnShowsWhatRstShows : Obligations.PowerOnShowsWhatRstShows :=
  ⟨reset_inputs, rfl, fun s => ⟨_, exec_rst s, rfl, rfl⟩⟩

end Sys2Proof.Machine

/-!
PROOFS. What an attempt has accepted (10_state R30): registers it has not written are never seen, and those it has written
hold the bytes it accepted.
-/

namespace Sys2Proof.Machine

/-! ### Registers that the attempt has not written -/

section
variable {d e : DecState}

/-- Up to `ofs = 2` an attempt has written no register beside `ofs` (10_state R30, invariant 5). -/
theorem DecState.alike_setOfs {n : Ofs} (hn : n.toNat ≤ 2) (d e : DecState) : (d.setOfs n).Alike (e.setOfs n) := by
  refine ⟨rfl, fun h => ?_, fun h => ?_, fun k h => ?_⟩ <;> rw [DecState.setOfs_ofs] at h <;> omega

/-- After the identifier's low byte. -/
theorem DecState.alike_afterIdl (b : Byte) (d e : DecState) :
    ((d.setIdLo b).setOfs 3).Alike ((e.setIdLo b).setOfs 3) := by
  refine ⟨rfl, fun _ => rfl, fun h => ?_, fun k h => ?_⟩
  · have hofs : 4 ≤ 3 := h
    omega
  · have hofs : 5 + k.val ≤ 3 := h
    omega

/-- After the identifier's high byte. -/
theorem DecState.Alike.afterIdh (h : d.Alike e) (hd : d.ofs = 3) (b : Byte) :
    ((d.setIdHi b).setOfs 4).Alike ((e.setIdHi b).setOfs 4) := by
  obtain ⟨-, hlo, -, -⟩ := h
  refine ⟨rfl, fun _ => hlo (by rw [hd]; decide), fun _ => rfl, fun k h => ?_⟩
  have hofs : 5 + k.val ≤ 4 := h
  omega

/-- After payload byte `k`: that register is written now, and those before it were. -/
theorem DecState.Alike.afterData (h : d.Alike e) {k : Fin 8} (hd : d.ofs.toNat = 4 + k.val) (b : Byte) :
    ((d.setBuf k b).setOfs (BitVec.ofNat 4 (5 + k.val))).Alike
      ((e.setBuf k b).setOfs (BitVec.ofNat 4 (5 + k.val))) := by
  obtain ⟨-, hlo, hhi, hbuf⟩ := h
  refine ⟨rfl, fun _ => hlo (by omega), fun _ => hhi (by omega), fun j hj => ?_⟩
  by_cases hjk : j = k
  · subst hjk
    exact (DecState.setBuf_same j b d).trans (DecState.setBuf_same j b e).symm
  · have hofs : (BitVec.ofNat 4 (5 + k.val)).toNat = 5 + k.val := by simp; omega
    rw [DecState.setOfs_ofs, hofs] at hj
    have hne : j.val ≠ k.val := fun heq => hjk (Fin.ext heq)
    exact (DecState.setBuf_other hjk b d).trans
      ((hbuf j (by omega)).trans (DecState.setBuf_other hjk b e).symm)

/-- With twelve bytes accepted every register is written, so the frame is the same. -/
theorem DecState.Alike.frame_eq (h : d.Alike e) (hd : d.ofs = 12) : d.id = e.id ∧ d.buf = e.buf := by
  obtain ⟨-, hlo, hhi, hbuf⟩ := h
  have hofs : d.ofs.toNat = 12 := by rw [hd]; rfl
  refine ⟨?_, ?_⟩
  · rw [DecState.id, DecState.id, hlo (by omega), hhi (by omega)]
  · exact Vector.ext fun k hk => hbuf ⟨k, hk⟩ (by simp only; omega)

/-- The same result, and next registers that look alike. -/
def SameAnswer (r r' : DecResult) : Prop := r.next.Alike r'.next ∧ r.result = r'.result

/-- Every row that `RXB` performs reads and keeps only what the attempt has written. -/
theorem DecState.Alike.decByte_sameAnswer (h : d.Alike e) (b : Byte) :
    SameAnswer (decByte b d) (decByte b e) := by
  have hofs : e.ofs = d.ofs := h.1.symm
  rcases decByte_cases b d with ⟨hd, rfl, -⟩ | ⟨hd, hb, -⟩ | ⟨hd, rfl, -⟩ | ⟨hd, hb, -⟩ | ⟨hd, -⟩ | ⟨hd, -⟩ |
    ⟨k, hd, -⟩ | ⟨hd, rfl, -⟩ | ⟨hd, hb, -⟩ | ⟨hd, -⟩
  · rw [decByte_sof hd, decByte_sof (hofs.trans hd)]
    exact ⟨alike_setOfs (by decide) d e, rfl⟩
  · rw [decByte_skip hb hd, decByte_skip hb (hofs.trans hd)]
    exact ⟨h, rfl⟩
  · rw [decByte_cmdOk hd, decByte_cmdOk (hofs.trans hd)]
    exact ⟨alike_setOfs (by decide) d e, rfl⟩
  · rw [decByte_cmdBad hb hd, decByte_cmdBad hb (hofs.trans hd)]
    exact ⟨alike_setOfs (by decide) d e, rfl⟩
  · rw [decByte_idl b hd, decByte_idl b (hofs.trans hd)]
    exact ⟨alike_afterIdl b d e, rfl⟩
  · rw [decByte_idh b hd, decByte_idh b (hofs.trans hd)]
    exact ⟨h.afterIdh hd b, rfl⟩
  · rw [decByte_data b hd, decByte_data b (hofs ▸ hd)]
    exact ⟨h.afterData hd b, rfl⟩
  · obtain ⟨hid, hbuf⟩ := h.frame_eq hd
    rw [decByte_tailOk hd, decByte_tailOk (hofs.trans hd)]
    exact ⟨alike_setOfs (by decide) d e, congrArg₂ RxResult.frame hid hbuf⟩
  · rw [decByte_tailBad hb hd, decByte_tailBad hb (hofs.trans hd)]
    exact ⟨alike_setOfs (by decide) d e, rfl⟩
  · rw [decByte_unreachable b hd, decByte_unreachable b (hofs ▸ hd), recover_hunt, recover_hunt]
    exact ⟨alike_setOfs (by decide) d e, rfl⟩

/-- `RXN` reads `ofs` alone, and keeps the registers or recovers. -/
theorem DecState.Alike.decNone_sameAnswer (h : d.Alike e) : SameAnswer (decNone d) (decNone e) := by
  have hofs : e.ofs = d.ofs := h.1.symm
  rcases decNone_cases d with ⟨hd, -⟩ | ⟨hd, hle, -⟩ | ⟨hd, -⟩
  · rw [decNone_notReady hd, decNone_notReady (hofs.trans hd)]
    exact ⟨h, rfl⟩
  · have hpos : 1 ≤ d.ofs.toNat := by bv_omega
    rw [decNone_wait hpos hle, decNone_wait (hofs ▸ hpos) (hofs ▸ hle)]
    exact ⟨h, rfl⟩
  · rw [decNone_unreachable hd, decNone_unreachable (hofs ▸ hd)]
    exact ⟨alike_setOfs (by decide) d e, rfl⟩

end

/-- Looking alike is a simulation: no operation reads a register that the attempt has not written. -/
theorem simulation_alike : Simulation DecState.Alike where
  at_reset := DecState.alike_of_hunt rfl rfl
  after_op rx _ _ h :=
    match rx with
    | some b => h.decByte_sameAnswer b
    | none => h.decNone_sameAnswer

/-- Settles O47: what a host may read is `ofs` and the two outputs, and looking alike is a simulation. -/
theorem staleRegistersAreNeverObservable : Obligations.StaleRegistersAreNeverObservable := by
  intro k s s' t t' halike hin ht ht'
  obtain ⟨hdec, -, henc, hrx⟩ := simulation_alike.runs_matched halike hin ht ht'
  refine ⟨?_, hdec⟩
  rw [State.observe, State.observe, State.rxOfs, State.rxOfs, hdec.1, henc, hrx]

/-! ### The bytes that the attempt has accepted -/

/-- The next byte continues the attempt (41_decoder R121, R123, R125 to R127). -/
def Continues (bs : List Byte) (b : Byte) : Prop :=
  bs.length < 12 ∧ (bs.length = 0 → b = Config.sof) ∧ (bs.length = 1 → b = Config.cmd)

section
variable {bs : List Byte} {b : Byte} {d : DecState}

theorem acceptedAfter_of_continues (h : Continues bs b) : acceptedAfter bs (some b) = bs ++ [b] := by
  obtain ⟨hlt, hsof, hcmd⟩ := h
  rw [acceptedAfter]
  split_ifs with h0 hb h1 hb
  · rw [List.length_eq_zero_iff.mp h0, List.nil_append]
  · exact absurd (hsof h0) hb
  · rfl
  · exact absurd (hcmd h1) hb
  · rfl

theorem acceptedAfter_of_not_continues (h : ¬ Continues bs b) : acceptedAfter bs (some b) = [] := by
  rw [acceptedAfter]
  split_ifs with h0 hb h1 hb hlt
  · exact absurd ⟨by omega, fun _ => hb, by omega⟩ h
  · rfl
  · exact absurd ⟨by omega, by omega, fun _ => hb⟩ h
  · rfl
  · exact absurd ⟨hlt, by omega, by omega⟩ h
  · rfl

/-- In the sync scan the attempt has accepted nothing. -/
theorem DecState.accepted_nil (h : d.ofs = 0) : d.Accepted [] := by
  refine ⟨by simp, by simp [h], ?_, ?_, ?_, ?_, ?_⟩ <;> simp

/-- `ofs` counts the accepted bytes. -/
theorem DecState.Accepted.ofs_toNat (h : d.Accepted bs) : d.ofs.toNat = bs.length := by
  obtain ⟨-, hofs, -⟩ := h
  exact hofs

theorem DecState.Accepted.legal (h : d.Accepted bs) : d.Legal := by
  obtain ⟨hle, hofs, -⟩ := h
  exact hofs.trans_le hle

/-- An attempt that has accepted nothing is in the sync scan. -/
theorem DecState.Accepted.ofs_eq_zero (h : d.Accepted []) : d.ofs = 0 := by
  exact BitVec.eq_of_toNat_eq h.ofs_toNat

/-- What `RXB` does with a byte that continues the attempt: it stores it in the register that `ofs` selects, if any. -/
structure Stores (b : Byte) (d : DecState) (r : DecResult) : Prop where
  result : r.result = .none
  ofs : r.next.ofs.toNat = d.ofs.toNat + 1
  idLo : d.ofs.toNat = 2 → r.next.idLo = b
  idHi : d.ofs.toNat = 3 → r.next.idHi = b
  buf (k : Fin 8) : d.ofs.toNat = 4 + k.val → r.next.buf[k] = b

/-- Before `ofs = 2` a byte has no register to be stored in. -/
theorem Stores.of_setOfs {n : Ofs} (hd : d.ofs.toNat < 2) (hn : n.toNat = d.ofs.toNat + 1) :
    Stores b d ⟨d.setOfs n, .none⟩ :=
  ⟨rfl, hn, fun h => by omega, fun h => by omega, fun k h => by omega⟩

theorem decByte_stores (hlt : d.ofs.toNat < 12) (hsof : d.ofs.toNat = 0 → b = Config.sof)
    (hcmd : d.ofs.toNat = 1 → b = Config.cmd) : Stores b d (decByte b d) := by
  have htoNat (n : Ofs) (hd : d.ofs = n) : d.ofs.toNat = n.toNat := by rw [hd]
  rcases decByte_cases b d with ⟨hd, -, h⟩ | ⟨hd, hb, -⟩ | ⟨hd, -, h⟩ | ⟨hd, hb, -⟩ | ⟨hd, h⟩ | ⟨hd, h⟩ | ⟨k, hd, h⟩ |
    ⟨hd, -, -⟩ | ⟨hd, -, -⟩ | ⟨hd, -⟩
  · have hn : d.ofs.toNat = 0 := htoNat 0 hd
    rw [h]
    exact .of_setOfs (by omega) (by rw [hn]; rfl)
  · exact absurd (hsof (htoNat 0 hd)) hb
  · have hn : d.ofs.toNat = 1 := htoNat 1 hd
    rw [h]
    exact .of_setOfs (by omega) (by rw [hn]; rfl)
  · exact absurd (hcmd (htoNat 1 hd)) hb
  · have hn : d.ofs.toNat = 2 := htoNat 2 hd
    rw [h]
    exact ⟨rfl, by rw [hn]; rfl, fun _ => rfl, fun h3 => by omega, fun k hk => by omega⟩
  · have hn : d.ofs.toNat = 3 := htoNat 3 hd
    rw [h]
    exact ⟨rfl, by rw [hn]; rfl, fun h2 => by omega, fun _ => rfl, fun k hk => by omega⟩
  · have hofs : (BitVec.ofNat 4 (5 + k.val)).toNat = 5 + k.val := by simp; omega
    rw [h]
    refine ⟨rfl, by rw [DecState.setOfs_ofs, hofs]; omega, fun h2 => by omega, fun h3 => by omega, fun j hj => ?_⟩
    obtain rfl : j = k := Fin.ext (by omega)
    exact DecState.setBuf_same j b d
  · have hn : d.ofs.toNat = 12 := htoNat 12 hd
    omega
  · have hn : d.ofs.toNat = 12 := htoNat 12 hd
    omega
  · omega

/-- A byte of the accepted ones, or the one just accepted. -/
theorem getElem?_snoc {j : Nat} {c : Byte} (h : (bs ++ [b])[j]? = some c) :
    bs[j]? = some c ∧ j < bs.length ∨ j = bs.length ∧ b = c := by
  obtain ⟨hj, hc⟩ := List.getElem?_eq_some_iff.mp h
  rw [List.length_append, List.length_singleton] at hj
  by_cases hlt : j < bs.length
  · exact .inl ⟨by rwa [List.getElem?_append_left hlt] at h, hlt⟩
  · obtain rfl : j = bs.length := by omega
    exact .inr ⟨rfl, by simpa using h⟩

/-- A byte that continues the attempt is absorbed, and the attempt has accepted it. -/
theorem DecState.Accepted.decByte_of_continues (h : d.Accepted bs) (hb : Continues bs b) :
    (decByte b d).result = .none ∧ (decByte b d).next.Accepted (bs ++ [b]) := by
  obtain ⟨-, hofs, hsof, hcmd, hlo, hhi, hbuf⟩ := h
  obtain ⟨hlt, hbsof, hbcmd⟩ := hb
  have hnew : Stores b d (decByte b d) := decByte_stores (hofs ▸ hlt) (hofs ▸ hbsof) (hofs ▸ hbcmd)
  obtain ⟨hkeepLo, hkeepHi, hkeepBuf⟩ := decByte_frame b d
  refine ⟨hnew.result, ?_, ?_, fun c hc => ?_, fun c hc => ?_, fun c hc => ?_, fun c hc => ?_, fun k c hc => ?_⟩
  · rw [List.length_append, List.length_singleton]
    omega
  · rw [hnew.ofs, hofs, List.length_append, List.length_singleton]
  · rcases getElem?_snoc hc with ⟨hold, -⟩ | ⟨hlen, rfl⟩
    · exact hsof c hold
    · exact hbsof hlen.symm
  · rcases getElem?_snoc hc with ⟨hold, -⟩ | ⟨hlen, rfl⟩
    · exact hcmd c hold
    · exact hbcmd hlen.symm
  · rcases getElem?_snoc hc with ⟨hold, hlen⟩ | ⟨hlen, rfl⟩
    · exact (hkeepLo (by bv_omega)).trans (hlo c hold)
    · exact hnew.idLo (by omega)
  · rcases getElem?_snoc hc with ⟨hold, hlen⟩ | ⟨hlen, rfl⟩
    · exact (hkeepHi (by bv_omega)).trans (hhi c hold)
    · exact hnew.idHi (by omega)
  · rcases getElem?_snoc hc with ⟨hold, hlen⟩ | ⟨hlen, rfl⟩
    · exact (hkeepBuf k (by omega)).trans (hbuf k c hold)
    · exact hnew.buf k (by omega)

/-- Any other byte ends the attempt (41_decoder R122, R124, R128, R129). -/
theorem DecState.Accepted.decByte_ofs_of_not_continues (h : d.Accepted bs) (hb : ¬ Continues bs b) :
    (decByte b d).next.ofs = 0 := by
  obtain ⟨hle, hofs, -⟩ := h
  have hlen (n : Ofs) (hd : d.ofs = n) : bs.length = n.toNat := by rw [← hofs, hd]
  rcases decByte_cases b d with ⟨hd, rfl, -⟩ | ⟨hd, -, hrow⟩ | ⟨hd, rfl, -⟩ | ⟨-, -, hrow⟩ | ⟨hd, -⟩ | ⟨hd, -⟩ |
    ⟨k, hd, -⟩ | ⟨-, -, hrow⟩ | ⟨-, -, hrow⟩ | ⟨hd, -⟩
  · have hn : bs.length = 0 := hlen 0 hd
    exact absurd ⟨by omega, fun _ => rfl, fun h1 => by omega⟩ hb
  · rw [hrow]; exact hd
  · have hn : bs.length = 1 := hlen 1 hd
    exact absurd ⟨by omega, fun h0 => by omega, fun _ => rfl⟩ hb
  · rw [hrow]; rfl
  · have hn : bs.length = 2 := hlen 2 hd
    exact absurd ⟨by omega, fun h0 => by omega, fun h1 => by omega⟩ hb
  · have hn : bs.length = 3 := hlen 3 hd
    exact absurd ⟨by omega, fun h0 => by omega, fun h1 => by omega⟩ hb
  · exact absurd ⟨by omega, fun h0 => by omega, fun h1 => by omega⟩ hb
  · rw [hrow]; rfl
  · rw [hrow]; rfl
  · omega

/-- Every decoder operation accepts what `acceptedAfter` says (10_state R30, invariants 1 to 4). -/
theorem DecState.Accepted.decStep_next (h : d.Accepted bs) (rx : Option Byte) :
    (decStep rx d).next.Accepted (acceptedAfter bs rx) := by
  cases rx with
  | none =>
    exact (decNone_next_of_legal h.legal).symm ▸ h
  | some b =>
    by_cases hb : Continues bs b
    · rw [acceptedAfter_of_continues hb]
      exact (h.decByte_of_continues hb).2
    · rw [acceptedAfter_of_not_continues hb]
      exact DecState.accepted_nil (h.decByte_ofs_of_not_continues hb)

/-! ### The frame is made of the accepted bytes -/

theorem DecState.Accepted.getElem?_idLo (h : d.Accepted bs) (hlen : 2 < bs.length) : bs[2]? = some d.idLo := by
  obtain ⟨-, -, -, -, hlo, -, -⟩ := h
  have hget := List.getElem?_eq_getElem hlen
  rw [hget, hlo _ hget]

theorem DecState.Accepted.getElem?_idHi (h : d.Accepted bs) (hlen : 3 < bs.length) : bs[3]? = some d.idHi := by
  obtain ⟨-, -, -, -, -, hhi, -⟩ := h
  have hget := List.getElem?_eq_getElem hlen
  rw [hget, hhi _ hget]

theorem DecState.Accepted.getElem?_buf (h : d.Accepted bs) (k : Fin 8) (hlen : 4 + k.val < bs.length) :
    bs[4 + k.val]? = some d.buf[k] := by
  obtain ⟨-, -, -, -, -, -, hbuf⟩ := h
  have hget := List.getElem?_eq_getElem hlen
  rw [hget, hbuf k _ hget]

/-- The low byte of the identifier (30_encoding R62). -/
@[simp] theorem DecState.id_low (d : DecState) : d.id.extractLsb' 0 8 = d.idLo :=
  (extract_append_low d.idHi d.idLo 0 8 (by omega)).trans (extract_whole d.idLo)

/-- The high byte of the identifier (30_encoding R62). -/
@[simp] theorem DecState.id_high (d : DecState) : d.id.extractLsb' 8 8 = d.idHi :=
  (extract_append_high d.idHi d.idLo 8 8 (by omega)).trans (extract_whole d.idHi)

/-- A frame comes of the byte `0x55` at `ofs = 12` alone, and shows the registers (41_decoder R128). -/
theorem decStep_frame {rx : Option Byte} {i : Id16} {p : Vector Byte 8} (h : (decStep rx d).result = .frame i p) :
    rx = some Config.eof ∧ d.ofs = 12 ∧ i = d.id ∧ p = d.buf := by
  cases rx with
  | none =>
    replace h : (decNone d).result = .frame i p := h
    rcases decNone_cases d with ⟨-, hrow⟩ | ⟨-, -, hrow⟩ | ⟨-, hrow⟩ <;> simp [hrow] at h
  | some b =>
    replace h : (decByte b d).result = .frame i p := h
    rcases decByte_cases b d with ⟨-, -, hrow⟩ | ⟨-, -, hrow⟩ | ⟨-, -, hrow⟩ | ⟨-, -, hrow⟩ | ⟨-, hrow⟩ | ⟨-, hrow⟩ |
      ⟨_, -, hrow⟩ | ⟨hd, rfl, hrow⟩ | ⟨-, -, hrow⟩ | ⟨-, hrow⟩ <;> rw [hrow] at h <;> cases h
    exact ⟨rfl, hd, rfl, rfl⟩

end

/-- Settles O46: the accepted bytes by `decStep_next`; a frame comes at `ofs = 12`, so twelve bytes are accepted, and the
registers that it shows hold them. -/
theorem registersHoldTheAcceptedBytes : Obligations.RegistersHoldTheAcceptedBytes := by
  intro bs s t hacc
  refine ⟨fun ht => ?_, fun rx i hi ht => ?_⟩
  · cases (exec_rst s).symm.trans ht
    exact DecState.accepted_nil rfl
  · obtain ⟨enc, rfl⟩ := exec_decoderOp hi ht
    refine ⟨hacc.decStep_next rx, fun ident p hout => ?_⟩
    obtain ⟨hrx, hofs, rfl, rfl⟩ := decStep_frame hout
    have hlen : bs.length = 12 := by rw [← hacc.ofs_toNat, hofs]; rfl
    rw [DecState.id_low, DecState.id_high]
    exact ⟨hrx, hlen, hacc.getElem?_idLo (by omega), hacc.getElem?_idHi (by omega),
      fun k => hacc.getElem?_buf k (by omega)⟩

end Sys2Proof.Machine

/-!
PROOFS. The encoder's operands and its output as the decoder reads them (40_encoder R100, R101, R103, 30_encoding R61, R79).
-/

namespace Sys2Proof.Machine

/-! ### The payload that the host presents -/

/-- The effective length of a payload presented on the port: the port's 15 cuts no length below 8 (40_encoder R101). -/
theorem lenEff_ofNat_min (n : Nat) : lenEff (BitVec.ofNat 4 (min n 15)) = min n 8 := by
  have hlt : min n 15 < 2 ^ 4 := by omega
  rw [lenEff, BitVec.toNat_ofNat, Nat.mod_eq_of_lt hlt]
  omega

/-- Settles O22: byte by byte, on both sides of the effective length. -/
theorem presentedPayloadIsNormalized : Obligations.PresentedPayloadIsNormalized := by
  intro p data hlanes
  apply List.ext_getElem?
  intro k
  by_cases hk : k < 8
  · rw [encPayload_getElem? _ _ hk, encByte, lenEff_ofNat_min]
    by_cases hp : k < p.length
    · have hlane := hlanes k (by omega)
      rw [List.getElem?_eq_getElem hp] at hlane
      rw [if_pos (by omega), normalizePayload_getElem?_of_lt hk hp, hlane]
    · rw [if_neg (by omega), normalizePayload_getElem?_of_ge hk (by omega)]
  · rw [List.getElem?_eq_none (by rw [encPayload_length]; omega),
      List.getElem?_eq_none (by rw [normalizePayload_length]; omega)]

/-- The lanes that the assembler form presents (30_encoding R80) hold the payload's bytes. -/
theorem lane_hostLanes (p : List Byte) (k : Nat) (hk : k < min p.length 8) : p[k]? = some (lane (hostLanes p) k) := by
  have hlt : k < p.length := by omega
  rw [hostLanes, lane_packBytes 64 _ k (by omega), List.getD_eq_getElem?_getD, List.getElem?_take_of_lt (by omega),
    List.getElem?_eq_getElem hlt, Option.getD_some]

/-- A payload presented in the assembler form is normalized. -/
theorem encPayload_host (p : List Byte) : encPayload (hostLen p) (hostLanes p) = normalizePayload p :=
  presentedPayloadIsNormalized p (hostLanes p) (lane_hostLanes p)

/-! ### The wire bytes -/

/-- The two identifier bytes make the identifier, zero-extended (30_encoding R63, 40_encoder R102). -/
theorem splitHi_append_splitLo (id : Id11) : splitHi id ++ splitLo id = id.setWidth 16 := by
  apply BitVec.eq_of_toNat_eq
  have hid : id.toNat < 2 ^ 11 := id.isLt
  rw [BitVec.toNat_append, ← Nat.shiftLeft_add_eq_or_of_lt (splitLo id).isLt, splitHi_toNat, splitLo_toNat,
    BitVec.toNat_setWidth, Nat.shiftLeft_eq]
  omega

/-- The five bits above an 11-bit identifier are 0 (30_encoding R63). -/
theorem splitHi_top (id : Id11) : (splitHi id).extractLsb' 3 5 = 0 := by
  apply BitVec.eq_of_toNat_eq
  have hid : id.toNat < 2 ^ 11 := id.isLt
  rw [BitVec.extractLsb'_toNat, splitHi_toNat, Nat.shiftRight_eq_div_pow, Nat.div_eq_of_lt (by omega)]
  rfl

/-- Lane `k` of the payload field of thirteen bytes is the byte at wire offset `4 + k` (30_encoding R60). -/
theorem lane_payloadField (f : FrameBits) {k : Nat} (hk : k < 8) : lane (f.extractLsb' 32 64) k = lane f (4 + k) := by
  apply BitVec.eq_of_getLsbD_eq
  intro i hi
  simp only [lane, BitVec.getLsbD_extractLsb', hi, decide_true, Bool.true_and]
  rw [decide_eq_true (by omega), Bool.true_and]
  congr 1
  omega

/-- The payload field of `enc_frame` is the normalized payload. -/
theorem unpackBytes_encOutput_payload (id : Id11) (len : Len) (data : Lanes) :
    unpackBytes 8 ((encOutput id len data).extractLsb' 32 64) = encPayload len data := by
  refine List.map_congr_left fun k hk => ?_
  have hk8 : k < 8 := List.mem_range.mp hk
  rw [lane_payloadField _ hk8, lane_encOutput_payload id len data hk8]

/-- Settles O19: the three fixed lanes make `enc_frame` a wire frame, and its fields are the lanes between them. -/
theorem encOutputIsAWireFrame : Obligations.EncOutputIsAWireFrame := by
  intro id len data
  refine ⟨splitLo id, splitHi id, (encOutput id len data).extractLsb' 32 64, ?_, splitHi_top id,
    splitHi_append_splitLo id, unpackBytes_encOutput_payload id len data⟩
  rw [decode, decodeWire_eq_ok_iff, lane_encOutput_idl, lane_encOutput_idh]
  exact ⟨⟨lane_encOutput_sof id len data, lane_encOutput_cmd id len data, lane_encOutput_eof id len data⟩, rfl⟩

/-- The thirteen bytes of `enc_frame` are the encoded frame (40_encoder R103, R104). -/
theorem unpackBytes_encOutput (id : Id11) (len : Len) (data : Lanes) :
    unpackBytes 13 (encOutput id len data) = encodeFrame id (encPayload len data) := by
  have hlen : (encodeFrame id (encPayload len data)).length = 13 := by simp [encodeFrame]
  rw [encOutput, ← hlen]
  exact unpackBytes_packBytes 104 _ (by omega)

end Sys2Proof.Machine

/-!
PROOFS. Runs of the decoder over a byte stream (41_decoder R135 to R137, 30_encoding R81): what the attempt has accepted at
each byte, and so what each byte reports.
-/

namespace Sys2Proof.Machine

/-- Bytes are fed in order. -/
theorem feed_append (bs cs : List Byte) : feed (bs ++ cs) = feed bs ++ feed cs := List.map_append

/-! ### A wire frame, byte by byte -/

/-- The first twelve bytes of a wire frame: all but the end sentinel (30_encoding R60). -/
def wireBytes (idl idh : Byte) (p : List Byte) : List Byte := [Config.sof, Config.cmd, idl, idh] ++ p

/-- Bytes that an attempt may accept one after the other. -/
def Acceptable (bs : List Byte) : Prop :=
  bs.length ≤ 12 ∧ (∀ b, bs[0]? = some b → b = Config.sof) ∧ ∀ b, bs[1]? = some b → b = Config.cmd

theorem acceptable_wireBytes (idl idh : Byte) {p : List Byte} (hp : p.length = 8) :
    Acceptable (wireBytes idl idh p) := by
  refine ⟨by simp [wireBytes, hp], fun b hb => ?_, fun b hb => ?_⟩
  · exact (Option.some.inj hb).symm
  · exact (Option.some.inj hb).symm

/-- In acceptable bytes each byte continues the attempt that accepted those before it. -/
theorem Acceptable.continues {bs cs : List Byte} {b : Byte} (h : Acceptable (bs ++ b :: cs)) : Continues bs b := by
  obtain ⟨hlen, hsof, hcmd⟩ := h
  have hget : (bs ++ b :: cs)[bs.length]? = some b := by simp
  rw [List.length_append, List.length_cons] at hlen
  exact ⟨by omega, fun h0 => hsof b (h0 ▸ hget), fun h1 => hcmd b (h1 ▸ hget)⟩

theorem Acceptable.left {bs cs : List Byte} (h : Acceptable (bs ++ cs)) : Acceptable bs := by
  obtain ⟨hlen, hsof, hcmd⟩ := h
  have hget {j : Nat} {b : Byte} (hb : bs[j]? = some b) : (bs ++ cs)[j]? = some b := by
    obtain ⟨hj, -⟩ := List.getElem?_eq_some_iff.mp hb
    rwa [List.getElem?_append_left hj]
  rw [List.length_append] at hlen
  exact ⟨by omega, fun b hb => hsof b (hget hb), fun b hb => hcmd b (hget hb)⟩

/-- The bytes accepted after a list of decoder operations. -/
def acceptedAll (bs : List Byte) (xs : List (Option Byte)) : List Byte := xs.foldl acceptedAfter bs

@[simp] theorem acceptedAll_nil (bs : List Byte) : acceptedAll bs [] = bs := rfl

@[simp] theorem acceptedAll_cons (bs : List Byte) (x : Option Byte) (xs : List (Option Byte)) :
    acceptedAll bs (x :: xs) = acceptedAll (acceptedAfter bs x) xs := rfl

theorem acceptedAll_append (bs : List Byte) (xs ys : List (Option Byte)) :
    acceptedAll bs (xs ++ ys) = acceptedAll (acceptedAll bs xs) ys := List.foldl_append

@[simp] theorem acceptedAfter_none (bs : List Byte) : acceptedAfter bs none = bs := rfl

/-- Acceptable bytes are accepted, with idle steps anywhere among them. -/
theorem acceptedAll_of_acceptable {bs : List Byte} {xs : List (Option Byte)} (h : Acceptable (bs ++ rxBytes xs)) :
    acceptedAll bs xs = bs ++ rxBytes xs := by
  induction xs generalizing bs with
  | nil => simp
  | cons x xs ih =>
    cases x with
    | none => exact ih h
    | some b =>
      have hsplit : bs ++ rxBytes (some b :: xs) = (bs ++ [b]) ++ rxBytes xs := by simp
      rw [acceptedAll_cons, acceptedAfter_of_continues h.continues, hsplit]
      exact ih (hsplit ▸ h)

/-- Of junk without a start sentinel nothing is accepted (41_decoder R122). -/
theorem acceptedAll_junk {junk : List Byte} (h : Config.sof ∉ junk) : acceptedAll [] (junk.map some) = [] := by
  induction junk with
  | nil => rfl
  | cons b junk ih =>
    obtain ⟨hb, hrest⟩ := not_or.mp (List.mem_cons.not.mp h)
    have hskip : ¬ Continues [] b := fun hcont => hb (hcont.2.1 rfl).symm
    rw [List.map_cons, acceptedAll_cons, acceptedAfter_of_not_continues hskip]
    exact ih hrest

/-! ### What each byte reports -/

section
variable {bs : List Byte} {b : Byte} {d : DecState}

/-- A byte in the sync scan reports nothing (41_decoder R121, R122). -/
theorem decByte_result_of_hunt (b : Byte) (h : d.ofs = 0) : (decByte b d).result = .none := by
  rw [decByte_hunt b h, hunt]
  split_ifs <;> rfl

/-- The end sentinel after the twelve bytes of a wire frame delivers the frame (41_decoder R128). -/
theorem DecState.Accepted.decByte_eof {idl idh : Byte} {p : List Byte} (h : d.Accepted (wireBytes idl idh p))
    (hp : p.length = 8) : decByte Config.eof d = ⟨d.setOfs 0, .frame (idh ++ idl) d.buf⟩ ∧ d.buf.toList = p := by
  have hlen : (wireBytes idl idh p).length = 12 := by simp [wireBytes, hp]
  have hofs : d.ofs = 12 := BitVec.eq_of_toNat_eq (h.ofs_toNat.trans hlen)
  have hlo : idl = d.idLo := Option.some.inj (h.getElem?_idLo (by omega))
  have hhi : idh = d.idHi := Option.some.inj (h.getElem?_idHi (by omega))
  refine ⟨by rw [decByte_tailOk hofs, hlo, hhi]; rfl, ?_⟩
  apply List.ext_getElem (by simp [hp])
  intro k hk hkp
  have hbuf := h.getElem?_buf ⟨k, by omega⟩ (by simp only; omega)
  have hget : (wireBytes idl idh p)[4 + k]? = p[k]? := by
    rw [wireBytes, List.getElem?_append_right (by simp)]
    simp
  rw [hget, List.getElem?_eq_getElem hkp] at hbuf
  simpa using (Option.some.inj hbuf).symm

end

/-! ### Runs over a byte stream -/

section
variable {bs : List Byte} {s t : State} {rest : List Input}

/-- After a run over decoder steps the attempt has accepted what the bytes make it accept. -/
theorem runs_asmRx {xs : List (Option Byte)} (hacc : s.dec.Accepted bs) (hin : s.inputs = asmRx xs ++ rest) :
    ∃ t, Runs xs.length s t ∧ t.dec.Accepted (acceptedAll bs xs) ∧ t.inputs = rest := by
  induction xs generalizing s bs with
  | nil => exact ⟨s, runs_zero s, hacc, hin⟩
  | cons x xs ih =>
    have hleft : (s.commit none (decStep x s.dec)).inputs = asmRx xs ++ rest := by
      rw [commit_inputs, hin]; rfl
    obtain ⟨t, hrun, ht, hrest⟩ := ih (hacc.decStep_next x) hleft
    exact ⟨t, runs_succ (step_rxWord hin) hrun, ht, hrest⟩

/-- The last of the steps of a run answers from the bytes accepted before it. -/
theorem runs_asmRx_last {xs : List (Option Byte)} {x : Option Byte} (hacc : s.dec.Accepted bs)
    (hin : s.inputs = asmRx (xs ++ [x]) ++ rest) :
    ∃ u : State, u.dec.Accepted (acceptedAll bs xs) ∧ Runs (xs.length + 1) s (u.commit none (decStep x u.dec)) ∧
      (u.commit none (decStep x u.dec)).inputs = rest := by
  rw [asmRx_append, List.append_assoc] at hin
  obtain ⟨u, hrun, hu, hleft⟩ := runs_asmRx hacc hin
  refine ⟨u, hu, runs_add hrun (runs_one (step_rxWord hleft)), ?_⟩
  rw [commit_inputs, hleft]
  rfl

/-- What step `k` of a run over decoder steps reports. -/
theorem rxOut_of_runs {xs : List (Option Byte)} {x : Option Byte} {k : Nat} (hacc : s.dec.Accepted bs)
    (hin : s.inputs = asmRx xs ++ rest) (hx : xs[k]? = some x) (ht : Runs (k + 1) s t) :
    ∃ d : DecState, d.Accepted (acceptedAll bs (xs.take k)) ∧ t.rxOut = (decStep x d).result := by
  obtain ⟨hk, rfl⟩ := List.getElem?_eq_some_iff.mp hx
  have hsplit : xs = (xs.take k ++ [xs[k]]) ++ xs.drop (k + 1) := by simp
  rw [hsplit, asmRx_append, List.append_assoc] at hin
  obtain ⟨u, hu, hrun, -⟩ := runs_asmRx_last hacc hin
  rw [List.length_take_of_le hk.le] at hrun
  cases runs_functional hrun ht
  exact ⟨u.dec, hu, rfl⟩

/-- From the sync scan, operations that accept the first twelve bytes of a wire frame, and then the end sentinel, deliver
the frame. -/
theorem runs_frame {xs : List (Option Byte)} {idl idh : Byte} {p : List Byte} (hofs : s.dec.ofs = 0)
    (hxs : acceptedAll [] xs = wireBytes idl idh p) (hp : p.length = 8)
    (hin : s.inputs = asmRx (xs ++ [some Config.eof]) ++ rest) :
    ∃ (t : State) (q : Vector Byte 8), Runs (xs.length + 1) s t ∧ t.rxOut = .frame (idh ++ idl) q ∧ q.toList = p ∧
      t.dec.ofs = 0 ∧ t.inputs = rest := by
  obtain ⟨u, hu, hrun, hrest⟩ := runs_asmRx_last (DecState.accepted_nil hofs) hin
  obtain ⟨hrow, hbuf⟩ := (hxs ▸ hu : u.dec.Accepted (wireBytes idl idh p)).decByte_eof hp
  refine ⟨_, u.dec.buf, hrun, ?_, hbuf, ?_, hrest⟩
  · exact congrArg DecResult.result hrow
  · exact congrArg (fun r => r.next.ofs) hrow

/-- `FEED` of a wire frame from the sync scan delivers it at the thirteenth byte (30_encoding R81). -/
theorem runs_feed_frame {idl idh : Byte} {p : List Byte} (hofs : s.dec.ofs = 0) (hp : p.length = 8)
    (hin : s.inputs = feed (wireBytes idl idh p ++ [Config.eof]) ++ rest) :
    ∃ (t : State) (q : Vector Byte 8), Runs 13 s t ∧ t.rxOut = .frame (idh ++ idl) q ∧ q.toList = p ∧
      t.dec.ofs = 0 ∧ t.inputs = rest := by
  have hxs : acceptedAll [] ((wireBytes idl idh p).map some) = wireBytes idl idh p := by
    rw [acceptedAll_of_acceptable] <;> rw [rxBytes_map_some, List.nil_append]
    exact acceptable_wireBytes idl idh hp
  have hlen : ((wireBytes idl idh p).map some).length = 12 := by simp [wireBytes, hp]
  rw [feed_eq_asmRx, List.map_append] at hin
  have hrun := runs_frame hofs hxs hp hin
  rwa [hlen] at hrun

end

/-! ### The laws of runs -/

/-- `RXB` goes back to the sync scan or forward by one (41_decoder R121 to R129). -/
theorem decByte_ofs_cases (b : Byte) (d : DecState) : (decByte b d).next.ofs = 0 ∨
    d.ofs.toNat < 12 ∧ (decByte b d).next.ofs.toNat = d.ofs.toNat + 1 := by
  rcases decByte_cases b d with ⟨hd, -, h⟩ | ⟨hd, -, h⟩ | ⟨hd, -, h⟩ | ⟨-, -, h⟩ | ⟨hd, h⟩ | ⟨hd, h⟩ | ⟨k, hd, h⟩ |
    ⟨-, -, h⟩ | ⟨-, -, h⟩ | ⟨-, h⟩ <;> rw [h]
  case inl | inr.inr.inl | inr.inr.inr.inr.inl | inr.inr.inr.inr.inr.inl => exact .inr ⟨by rw [hd]; decide, by rw [hd]; rfl⟩
  case inr.inr.inr.inr.inr.inr.inl =>
    right
    simp only [DecState.setOfs_ofs, BitVec.toNat_ofNat]
    omega
  case inr.inl => exact .inl hd
  all_goals exact .inl rfl

/-- Settles O48, by induction on the decoder steps: an idle step changes nothing, and a byte ends the attempt or brings
`ofs` one nearer to 13. -/
theorem boundedReturnToHunt : Obligations.BoundedReturnToHunt := by
  intro xs
  induction xs with
  | nil =>
    intro s rest _ hle _ hbytes
    rw [rxBytes_nil, List.length_nil] at hbytes
    omega
  | cons x xs ih =>
    intro s rest hpos hle hin hbytes
    have hleft (r : DecResult) : (s.commit none r).inputs = asmRx xs ++ rest := by
      rw [commit_inputs, hin]; rfl
    cases x with
    | none =>
      have hstep : step s = .next (s.commit none (rxnWait s.dec)) := by
        rw [step_rxWord hin, decStep, decNone_wait hpos hle]
      obtain ⟨k, hk, hused, t, hrun, ht⟩ := ih (s.commit none (rxnWait s.dec)) rest hpos hle (hleft _) hbytes
      exact ⟨k + 1, Nat.succ_le_succ hk, hused, t, runs_succ hstep hrun, ht⟩
    | some b =>
      have hstep : step s = .next (s.commit none (decByte b s.dec)) := step_rxWord hin
      rcases decByte_ofs_cases b s.dec with hend | ⟨hlt, hnext⟩
      · exact ⟨1, by simp, by simp; omega, _, runs_one hstep, hend⟩
      · have hofs : (s.commit none (decByte b s.dec)).dec.ofs.toNat = s.dec.ofs.toNat + 1 := hnext
        rw [rxBytes_some, List.length_cons] at hbytes
        obtain ⟨k, hk, hused, t, hrun, ht⟩ :=
          ih (s.commit none (decByte b s.dec)) rest (by omega) (by omega) (hleft _) (by omega)
        refine ⟨k + 1, Nat.succ_le_succ hk, ?_, t, runs_succ hstep hrun, ht⟩
        rw [List.take_succ_cons, rxBytes_some, List.length_cons]
        omega

/-- The bytes of an encoded frame before its end sentinel (40_encoder R103). -/
theorem encodeFrame_eq (id : Id11) (p : List Byte) :
    encodeFrame id p = wireBytes (splitLo id) (splitHi id) p ++ [Config.eof] := rfl

/-- A byte among acceptable bytes that are presented with idle steps reports nothing. -/
theorem rxOut_of_acceptable {xs : List (Option Byte)} {s t : State} {rest : List Input} {k : Nat} {b : Byte}
    (hofs : s.dec.ofs = 0) (hbytes : Acceptable (rxBytes xs)) (hin : s.inputs = asmRx xs ++ rest)
    (hx : xs[k]? = some (some b)) (ht : Runs (k + 1) s t) : t.rxOut = .none := by
  obtain ⟨d, hd, hout⟩ := rxOut_of_runs (DecState.accepted_nil hofs) hin hx ht
  obtain ⟨hk, hget⟩ := List.getElem?_eq_some_iff.mp hx
  have hsplit : rxBytes xs = rxBytes (xs.take k) ++ b :: rxBytes (xs.drop (k + 1)) := by
    rw [← rxBytes_some, ← rxBytes_append, ← hget, List.getElem_cons_drop, List.take_append_drop]
  rw [hsplit] at hbytes
  rw [acceptedAll_of_acceptable (by simpa using hbytes.left), List.nil_append] at hd
  exact hout.trans (hd.decByte_of_continues hbytes.continues).1

/-- Settles O49: the bytes before the end sentinel are acceptable, so each reports nothing and all are accepted. -/
theorem roundTrip : Obligations.RoundTrip := by
  intro ident p xs s rest hofs hbytes hin
  have hp := normalizePayload_length p
  rw [encodeFrame_eq, List.dropLast_concat] at hbytes
  have hacc : Acceptable (rxBytes xs) := hbytes ▸ acceptable_wireBytes _ _ hp
  refine ⟨?_, fun k t hk ht => ⟨fun b hb => ?_, fun hnone => ?_⟩⟩
  · rw [← splitHi_append_splitLo]
    exact runs_frame hofs ((acceptedAll_of_acceptable hacc).trans hbytes) hp hin
  · rw [asmRx_append, List.append_assoc] at hin
    exact rxOut_of_acceptable hofs hacc hin hb ht
  · rw [asmRx_append, List.append_assoc] at hin
    obtain ⟨d, -, hout⟩ := rxOut_of_runs (DecState.accepted_nil hofs) hin hnone ht
    rw [hout]
    exact decNone_result_cases d

/-- Settles O50: the `ENC` step leaves the sync scan as it is, and its frame is fed from its port. -/
theorem loopDeliversTheFrame : Obligations.LoopDeliversTheFrame := by
  intro ident p s rest hofs hin
  have hstep : step s = .next (s.commit (some (encOutput ident (hostLen p) (hostLanes p))) (decNone s.dec)) :=
    (step_word hin).trans (congrArg (exec · s) (decodeStepWord_packStepWord _ _ _ _ _ _ _))
  have hfeed : (s.commit (some (encOutput ident (hostLen p) (hostLanes p))) (decNone s.dec)).inputs =
      feed (unpackBytes 13 (encOutput ident (hostLen p) (hostLanes p))) ++ rest := by
    rw [commit_inputs, hin]; rfl
  have hdec : (s.commit (some (encOutput ident (hostLen p) (hostLanes p))) (decNone s.dec)).dec.ofs = 0 := by
    rw [commit_dec, decNone_notReady hofs]; exact hofs
  have hbytes := hfeed
  rw [unpackBytes_encOutput, encPayload_host, encodeFrame_eq] at hbytes
  obtain ⟨t, q, hrun, hout, hq, hend, hrest⟩ := runs_feed_frame hdec (normalizePayload_length p) hbytes
  rw [splitHi_append_splitLo] at hout
  exact ⟨_, t, q, runs_one hstep, rfl, hfeed, runs_succ hstep hrun, hout, hq, hend, hrest⟩

/-- The payload bytes of thirteen wire bytes (30_encoding R60). -/
def payloadBytes (f : FrameBits) : List Byte := (List.range 8).map fun k => lane f (4 + k)

theorem payloadBytes_length (f : FrameBits) : (payloadBytes f).length = 8 := by simp [payloadBytes]

/-- Thirteen bytes that are a wire frame, from the lanes (30_encoding R60, R61). -/
theorem unpackBytes_of_wire {f : FrameBits} (hsof : lane f 0 = Config.sof) (hcmd : lane f 1 = Config.cmd)
    (heof : lane f 12 = Config.eof) :
    unpackBytes 13 f = wireBytes (lane f 2) (lane f 3) (payloadBytes f) ++ [Config.eof] := by
  rw [wireBytes, ← hsof, ← hcmd, ← heof]
  rfl

/-- What is left of a run after its first steps. -/
theorem runs_after {j k : Nat} {s u t : State} (hj : Runs j s u) (ht : Runs (j + k) s t) : Runs k u t := by
  obtain ⟨t', hrun⟩ := noRunEverStops.2 k u
  rwa [runs_functional ht (runs_add hj hrun)]

section Junk
variable {junk : List Byte} {s t : State} {rest : List Input}

/-- Junk without a start sentinel leaves the decoder in the sync scan. -/
theorem runs_junk (hofs : s.dec.ofs = 0) (hjunk : Config.sof ∉ junk) (hin : s.inputs = feed junk ++ rest) :
    ∃ u, Runs junk.length s u ∧ u.dec.ofs = 0 ∧ u.inputs = rest := by
  rw [feed_eq_asmRx] at hin
  obtain ⟨u, hrun, hu, hrest⟩ := runs_asmRx (DecState.accepted_nil hofs) hin
  rw [List.length_map] at hrun
  rw [acceptedAll_junk hjunk] at hu
  exact ⟨u, hrun, hu.ofs_eq_zero, hrest⟩

/-- Junk without a start sentinel reports nothing. -/
theorem rxOut_of_junk {k : Nat} (hofs : s.dec.ofs = 0) (hjunk : Config.sof ∉ junk)
    (hin : s.inputs = feed junk ++ rest) (hk : k < junk.length) (ht : Runs (k + 1) s t) : t.rxOut = .none := by
  rw [feed_eq_asmRx] at hin
  have hx : (junk.map some)[k]? = some (some junk[k]) := by simp [hk]
  obtain ⟨d, hd, hout⟩ := rxOut_of_runs (DecState.accepted_nil hofs) hin hx ht
  rw [← List.map_take, acceptedAll_junk fun hmem => hjunk (List.mem_of_mem_take hmem)] at hd
  exact hout.trans (decByte_result_of_hunt junk[k] hd.ofs_eq_zero)

end Junk

/-- Settles O51: the junk leaves the sync scan as it is, and from there the wire frame is delivered. -/
theorem resynchronizesAfterJunk : Obligations.ResynchronizesAfterJunk := by
  intro junk f s rest hofs hjunk hsof hcmd heof hin
  have hp := payloadBytes_length f
  rw [unpackBytes_of_wire hsof hcmd heof, feed_append, List.append_assoc] at hin
  obtain ⟨u, hu, huofs, huin⟩ := runs_junk hofs hjunk hin
  constructor
  · obtain ⟨t, q, hrun, hout, hq, hend, hrest⟩ := runs_feed_frame huofs hp huin
    refine ⟨t, q, runs_add hu hrun, hout, fun k => ?_, hend, hrest⟩
    have hget : q.toList[k.val]? = some (lane f (4 + k.val)) := by rw [hq]; simp [payloadBytes]
    simpa using hget
  · intro k t hk ht
    by_cases hlt : k < junk.length
    · exact rxOut_of_junk hofs hjunk hin hlt ht
    · obtain ⟨m, rfl⟩ := Nat.exists_eq_add_of_le (Nat.le_of_not_lt hlt)
      have hlen : m < (wireBytes (lane f 2) (lane f 3) (payloadBytes f)).length := by
        simp only [wireBytes, List.length_append, hp, List.length_cons, List.length_nil]
        omega
      rw [feed_append, List.append_assoc, feed_eq_asmRx] at huin
      exact rxOut_of_acceptable huofs (by rw [rxBytes_map_some]; exact acceptable_wireBytes _ _ hp) huin
        (b := (wireBytes (lane f 2) (lane f 3) (payloadBytes f))[m]) (by simp [hlen]) (runs_after hu ht)

/-- The thirteen bytes of a wire frame made of its fields. -/
theorem unpackBytes_packWire (idl idh : Byte) (data : Lanes) :
    unpackBytes 13 (packWire idl idh data) = wireBytes idl idh (unpackBytes 8 data) ++ [Config.eof] := by
  have hpayload : payloadBytes (packWire idl idh data) = unpackBytes 8 data :=
    List.map_congr_left fun k hk => packWire_payload idl idh data k (List.mem_range.mp hk)
  rw [unpackBytes_of_wire (packWire_sof ..) (packWire_cmd ..) (packWire_eof ..), packWire_idl, packWire_idh, hpayload]

/-- Settles O52: `WIRE_FRAME` by its meaning, and as a transaction it is `FEED` of its thirteen bytes. -/
theorem wireFrameIsFedByteByByte : Obligations.WireFrameIsFedByteByByte := by
  constructor
  · intro idl idh data s
    refine ⟨_, _, exec_wireFrame idl idh data s, exec_rxb s 0xAA, rfl, rfl, rfl, rfl, ?_⟩
    simp only [unpackBytes_packWire]
    rfl
  · intro idl idh data s rest hofs hin
    obtain ⟨t, q, hrun, hresult⟩ := runs_feed_frame
      (s := { s with inputs := feed (unpackBytes 13 (packWire idl idh data)) ++ rest }) hofs (unpackBytes_length 8 data)
      (by rw [unpackBytes_packWire])
    obtain ⟨u, hstep, hrest⟩ := runs_succ_iff.mp hrun
    refine ⟨t, q, runs_succ ?_ hrest, hresult⟩
    rw [← hstep, ← fedFrameIsThirteenBytes, ← hin]

/-- Settles O53: `RST` leaves the reset registers, and the byte meets the sync scan. -/
theorem rstAbandonsThePartialFrame : Obligations.RstAbandonsThePartialFrame := by
  intro b s rest hin
  have hrst : step s = .next (s.commit none (emit .none DecState.reset)) := step_of_rst hin (packStepWord_rst ..)
  have hleft : (s.commit none (emit .none DecState.reset)).inputs = asmRxb b ++ rest := by
    rw [commit_inputs, hin]; rfl
  have hbyte := step_rxWord hleft
  refine ⟨_, _, runs_one hrst, rfl, rfl, runs_succ hrst (runs_one hbyte), ?_, ?_, ?_⟩
  · exact decByte_result_of_hunt b rfl
  · rw [commit_inputs, hleft]; rfl
  · show (decByte b DecState.reset).next = _
    by_cases hb : b = 0xAA
    · rw [if_pos hb, hb]
      exact congrArg DecResult.next (decByte_sof rfl)
    · rw [if_neg hb]
      exact congrArg DecResult.next (decByte_skip hb rfl)

end Sys2Proof.Machine
